-- ==== Sys2Proof/Word.lean ====
section
/-! DEFINITION. The one word of the machine: a byte, and the nibble of the D-pad field (spec/00_scope.md R9). -/

namespace Sys2Proof

/-- A byte: an unsigned integer 0..255, eight bits wide (R9).
Bit 0 is the least significant, so bit k is the bit selected by the mask 2^k. -/
abbrev Byte := BitVec 8

/-- A 4-bit field, `b[3:0]` of a byte: the D-pad nibble (R9, R82). -/
abbrev Nibble := BitVec 4

end Sys2Proof
end

