-- ==== Sys2Proof/Config.lean ====
section
/-! DEFINITION. The constants the source fixes (R6), the parameters it leaves open (R7), and the
configuration the reset state carries. -/

namespace Sys2Proof

/-- The parameters of R7. Each is an argument of the model: it stands in `State`, no operation writes it, and
every statement quantified over states is quantified over every setting of them (notes/assumptions/1.md). -/
structure Params where
  /-- `TAG_STATE`: tag value of the "current state" message; the only tag the block compares with (R80). -/
  tagState : Byte
  /-- `TAG_CFG_UPDATE`; no rule of the block reads it (R7), nor any of the six below. -/
  tagCfgUpdate : Byte
  /-- `TAG_CFG_REPORT`. -/
  tagCfgReport : Byte
  /-- `TAG_ERR_FIFO`. -/
  tagErrFifo : Byte
  /-- `TAG_ERR_PACK`. -/
  tagErrPack : Byte
  /-- `TAG_ERR_TRANSPORT`. -/
  tagErrTransport : Byte
  /-- `TAG_ERR_INVALID`. -/
  tagErrInvalid : Byte
  /-- `TAG_ERR_DISCONNECTED`. -/
  tagErrDisconnected : Byte
  /-- `ACC_DEPTH`: capacity of the accumulator in bytes, start marker included; `none` is ∞ (R52). -/
  accDepth : Option Nat
  /-- `AXIS_NEUTRAL`: reset value of the four axis registers. -/
  axisNeutral : Byte
  /-- `SOF_RESYNC`: whether an unescaped start marker inside a frame restarts the frame (R114, R115). -/
  sofResync : Bool
  /-- `GP_RESET_ON_OPEN`: whether OPEN returns `gp` to its reset values (R197). -/
  gpResetOnOpen : Bool
  deriving DecidableEq, Repr

namespace Config

/-- `SOF`, the start marker (R6). -/
def sof : Byte := 0x7E#8
/-- `EOF`, the end marker (R6). -/
def eof : Byte := 0x7F#8
/-- `ESC`, the escape marker (R6). -/
def esc : Byte := 0x7D#8
/-- `XORMASK`, the value XORed onto an escaped byte (R6). -/
def xorMask : Byte := 0x20#8
/-- `STATE_LEN`, the least length in bytes of the input-state sub-payload (R6). -/
def stateLen : Nat := 6

/-- FREE VALUE: the source gives `TAG_STATE` no number (R7, U13); nothing can be proved of this value.
notes/assumptions/2.md. -/
opaque tagState : Byte
/-- FREE VALUE: `TAG_CFG_UPDATE` (R7, U13). notes/assumptions/2.md. -/
opaque tagCfgUpdate : Byte
/-- FREE VALUE: `TAG_CFG_REPORT` (R7, U13). notes/assumptions/2.md. -/
opaque tagCfgReport : Byte
/-- FREE VALUE: `TAG_ERR_FIFO` (R7, U13). notes/assumptions/2.md. -/
opaque tagErrFifo : Byte
/-- FREE VALUE: `TAG_ERR_PACK` (R7, U13). notes/assumptions/2.md. -/
opaque tagErrPack : Byte
/-- FREE VALUE: `TAG_ERR_TRANSPORT` (R7, U13). notes/assumptions/2.md. -/
opaque tagErrTransport : Byte
/-- FREE VALUE: `TAG_ERR_INVALID` (R7, U13). notes/assumptions/2.md. -/
opaque tagErrInvalid : Byte
/-- FREE VALUE: `TAG_ERR_DISCONNECTED` (R7, U13). notes/assumptions/2.md. -/
opaque tagErrDisconnected : Byte

/-- The configuration of the reset state: the spec's own defaults where R7 gives one, a free value where it
gives none. -/
def params : Params where
  tagState := tagState
  tagCfgUpdate := tagCfgUpdate
  tagCfgReport := tagCfgReport
  tagErrFifo := tagErrFifo
  tagErrPack := tagErrPack
  tagErrTransport := tagErrTransport
  tagErrInvalid := tagErrInvalid
  tagErrDisconnected := tagErrDisconnected
  accDepth := none
  axisNeutral := 0x80#8
  sofResync := false
  gpResetOnOpen := true

end Config
end Sys2Proof
end

