-- ==== Sys2Proof/Syntax.lean ====
section
/-! DEFINITION. The operations of spec/opcode_table.json, one constructor per row, and the contexts the table's
rows apply in (R86, R93). -/

namespace Sys2Proof

/-- The assembler's sequencing state (R23). -/
inductive Mode where
  /-- Hunting for a start marker; nothing buffered. -/
  | idle
  /-- Inside a frame; the next byte is tested as a marker. -/
  | frame
  /-- Inside a frame, an escape marker pending; the next byte is taken without being tested. -/
  | esc
  deriving DecidableEq, Repr

/-- The twelve buttons in the source's order (R30). -/
inductive Button where
  | X | A | B | Y | LB | RB | LT | RT | BACK | START | L3 | R3
  deriving DecidableEq, Repr

/-- The operations no bit pattern selects: format `EVENT` of R93. -/
inductive EventKind where
  | step | submit | batchSubmit | decode | gpUpdate | deliver | reset | openSession | close | frameWrap
  deriving DecidableEq, Repr

/-- Where a row of the table applies: the row's `context` and `format` (R93). Rows of different contexts never
compete for the same bits. -/
inductive Context where
  /-- Format B: an input byte, read in a mode of the assembler. -/
  | mode (m : Mode)
  /-- Formats U1 and U2: the unit at the front of a raw frame inside Decode. -/
  | unit
  /-- Format P: the tag, first byte of a payload, inside DELIVER. -/
  | tag
  /-- Format G: a sub-payload inside GpUpdate. -/
  | pad
  /-- Format N: the D-pad nibble, zero-extended to a byte. -/
  | nibble
  /-- Format M: the byte that carries one button. -/
  | button (k : Button)
  /-- Format TX: a payload byte inside the transmit-side Escape. -/
  | tx
  /-- Format EVENT: an operation invoked by name, its operand sequence as the bytes. -/
  | event (e : EventKind)
  deriving DecidableEq, Repr

/-- One constructor per row of spec/opcode_table.json, in the table's order. The operands are the fields the
row's encoding has, or, for a row without a bit pattern, the operand its rule names. -/
inductive Instr where
  /-- HUNT.SOF (R112). -/
  | huntSof
  /-- HUNT.DROP (R111). -/
  | huntDrop (b : Byte)
  /-- FRM.ESC (R116). -/
  | frmEsc
  /-- FRM.EOF (R117). -/
  | frmEof
  /-- FRM.SOF, the row of SOF_RESYNC = 0 (R114). -/
  | frmSof
  /-- FRM.SOF.RESYNC, the row of SOF_RESYNC = 1 (R115). -/
  | frmSofResync
  /-- FRM.DATA (R113). -/
  | frmData (b : Byte)
  /-- ESC.ANY (R118). -/
  | escAny (b : Byte)
  /-- DEC.PAIR (R142); x is the byte after the escape marker. -/
  | decPair (x : Byte)
  /-- DEC.TRUNC (R143). -/
  | decTrunc
  /-- DEC.LIT (R141). -/
  | decLit (b : Byte)
  /-- TAG.STATE (R192, R193): a payload whose tag is TAG_STATE; sub is the rest of the payload. -/
  | tagState (sub : List Byte)
  /-- TAG.OTHER (R192, R194): a payload that is empty or has another tag. -/
  | tagOther (payload : List Byte)
  /-- GP.UPDATE (R162): the six bytes of format G, and the bytes after them, which are ignored (R168). -/
  | gpUpdate (lx ly rx ry byte4 byte5 : Byte) (rest : List Byte)
  /-- GP.NOP (R161): a sub-payload of fewer than six bytes. -/
  | gpNop (sub : List Byte)
  /-- DIR.UP, nibble 0 (R165). -/
  | dirUp
  /-- DIR.UP_RIGHT, nibble 1. -/
  | dirUpRight
  /-- DIR.RIGHT, nibble 2. -/
  | dirRight
  /-- DIR.DOWN_RIGHT, nibble 3. -/
  | dirDownRight
  /-- DIR.DOWN, nibble 4. -/
  | dirDown
  /-- DIR.DOWN_LEFT, nibble 5. -/
  | dirDownLeft
  /-- DIR.LEFT, nibble 6. -/
  | dirLeft
  /-- DIR.UP_LEFT, nibble 7. -/
  | dirUpLeft
  /-- DIR.NONE, nibble 8. -/
  | dirNone
  /-- DIR.UNRECOGNIZED, the row `1001`. -/
  | dirUnrecognized9
  /-- DIR.UNRECOGNIZED, the row `101x`; x is the don't-care bit. -/
  | dirUnrecognizedAB (x : BitVec 1)
  /-- DIR.UNRECOGNIZED, the row `11xx`; x is the don't-care bits. -/
  | dirUnrecognizedCF (x : BitVec 2)
  /-- BTN.X: b is byte 4 of the sub-payload (R166). -/
  | btnX (b : Byte)
  /-- BTN.A: b is byte 4. -/
  | btnA (b : Byte)
  /-- BTN.B: b is byte 4. -/
  | btnB (b : Byte)
  /-- BTN.Y: b is byte 4. -/
  | btnY (b : Byte)
  /-- BTN.LB: b is byte 5 of the sub-payload (R167). -/
  | btnLB (b : Byte)
  /-- BTN.RB: b is byte 5. -/
  | btnRB (b : Byte)
  /-- BTN.LT: b is byte 5. -/
  | btnLT (b : Byte)
  /-- BTN.RT: b is byte 5. -/
  | btnRT (b : Byte)
  /-- BTN.BACK: b is byte 5. -/
  | btnBACK (b : Byte)
  /-- BTN.START: b is byte 5. -/
  | btnSTART (b : Byte)
  /-- BTN.L3: b is byte 5. -/
  | btnL3 (b : Byte)
  /-- BTN.R3: b is byte 5. -/
  | btnR3 (b : Byte)
  /-- TX.ESC.7E (R148). -/
  | txEsc7E
  /-- TX.ESC.7D (R148). -/
  | txEsc7D
  /-- TX.ESC.7F (R148). -/
  | txEsc7F
  /-- TX.LIT (R148). -/
  | txLit (b : Byte)
  /-- STEP (R110): the operation of the input event Byte(b). -/
  | stepByte (b : Byte)
  /-- SUBMIT (R119). -/
  | submit (chunk : List Byte)
  /-- BATCHSUBMIT (R121). -/
  | batchSubmit (chunk : List Byte)
  /-- DECODE (R144). -/
  | decodeFrame (f : List Byte)
  /-- GPUPDATE (R160). -/
  | gpUpdateCall (sub : List Byte)
  /-- DELIVER (R190). -/
  | deliver (raw : List Byte)
  /-- RESET (R196). -/
  | reset
  /-- OPEN (R197). -/
  | openSession
  /-- CLOSE (R198). -/
  | close
  /-- FRAMEWRAP (R149). -/
  | frameWrap (p : List Byte)
  deriving DecidableEq, Repr

end Sys2Proof
end

