-- ==== Sys2Proof/WellFormed.lean ====
section
/-! DEFINITION. Which instruction terms are instructions: the operand values a row's `excludes` shuts out, the
length that selects GP.NOP, and the rows that exist only in one configuration (R86, R93). -/

namespace Sys2Proof

/-- One of the three marker values `0x7E`, `0x7D`, `0x7F` (R75). -/
def isReserved (b : Byte) : Bool :=
  b == Config.sof || b == Config.esc || b == Config.eof

/-- An instruction term the operation map can select under the parameters `p` (R93: a value selects a row when it
is not listed under `excludes`; FRM.SOF and FRM.SOF.RESYNC: exactly one of them exists in a configuration). -/
def Instr.wf (p : Params) : Instr → Bool
  | .huntDrop b => b != Config.sof
  | .frmSof => !p.sofResync
  | .frmSofResync => p.sofResync
  | .frmData b => !isReserved b
  | .decLit b => b != Config.esc
  | .tagOther payload => payload.head? != some p.tagState
  | .gpNop sub => decide (sub.length < Config.stateLen)
  | .txLit b => !isReserved b
  | .huntSof | .frmEsc | .frmEof | .escAny _ | .decPair _ | .decTrunc | .tagState _
  | .gpUpdate _ _ _ _ _ _ _
  | .dirUp | .dirUpRight | .dirRight | .dirDownRight | .dirDown | .dirDownLeft | .dirLeft | .dirUpLeft
  | .dirNone | .dirUnrecognized9 | .dirUnrecognizedAB _ | .dirUnrecognizedCF _
  | .btnX _ | .btnA _ | .btnB _ | .btnY _ | .btnLB _ | .btnRB _ | .btnLT _ | .btnRT _ | .btnBACK _
  | .btnSTART _ | .btnL3 _ | .btnR3 _
  | .txEsc7E | .txEsc7D | .txEsc7F
  | .stepByte _ | .submit _ | .batchSubmit _ | .decodeFrame _ | .gpUpdateCall _ | .deliver _
  | .reset | .openSession | .close | .frameWrap _ => true

end Sys2Proof
end

