-- ==== Sys2Proof/Decode.lean ====
section
/-! DEFINITION. The decoder, total on any bytes in every context of the operation map (R86, R93), rejecting by
name, and after it the encoder, written from the same table. -/

namespace Sys2Proof

/-- Why bytes laid before a context are no operation of it. Only a component applied directly can meet one: every
byte is an operation in every mode (R86). -/
inductive DecodeError where
  /-- The context reads a byte and there is none. -/
  | noByte
  /-- Format N is four bits wide and the byte has a bit above them. -/
  | notNibble (b : Byte)
  deriving DecidableEq, Repr

/-- What the decoder answers: an operation and the bytes after it, or a rejection by name. -/
abbrev Decoded := Except DecodeError (Instr × List Byte)

/-- The operation a `Byte(b)` event selects: the pair (mode, byte), specific values first (R86, R110). Under
SOF_RESYNC = 1 the start-marker row of FRAME mode is FRM.SOF.RESYNC (R115). -/
def decodeByte (p : Params) (m : Mode) (b : Byte) : Instr :=
  match m with
  | .idle => if b = Config.sof then .huntSof else .huntDrop b
  | .frame =>
    if b = Config.esc then .frmEsc
    else if b = Config.eof then .frmEof
    else if b = Config.sof then (if p.sofResync then .frmSofResync else .frmSof)
    else .frmData b
  | .esc => .escAny b

/-- The unit at the front of a byte sequence (R77, R87): two bytes when the first is an escape marker and a byte
follows, otherwise one. -/
def decodeUnit : List Byte → Decoded
  | [] => .error .noByte
  | b :: rest =>
    if b = Config.esc then
      match rest with
      | [] => .ok (.decTrunc, [])
      | x :: rest' => .ok (.decPair x, rest')
    else .ok (.decLit b, rest)

/-- The tag row of a payload (R192): TAG.STATE takes the tag off, TAG.OTHER takes the payload as it is. -/
def decodeTag (p : Params) : List Byte → Instr
  | [] => .tagOther []
  | t :: sub => if t = p.tagState then .tagState sub else .tagOther (t :: sub)

/-- The row of GpUpdate a sub-payload selects, by its length alone (R160). -/
def decodePad : List Byte → Instr
  | lx :: ly :: rx :: ry :: byte4 :: byte5 :: rest => .gpUpdate lx ly rx ry byte4 byte5 rest
  | sub => .gpNop sub

/-- The direction row a nibble selects (R84, R93: `1001`, `101x`, `11xx` are the three UNRECOGNIZED rows). -/
def decodeNibble (n : Nibble) : Instr :=
  if n = 0#4 then .dirUp
  else if n = 1#4 then .dirUpRight
  else if n = 2#4 then .dirRight
  else if n = 3#4 then .dirDownRight
  else if n = 4#4 then .dirDown
  else if n = 5#4 then .dirDownLeft
  else if n = 6#4 then .dirLeft
  else if n = 7#4 then .dirUpLeft
  else if n = 8#4 then .dirNone
  else if n = 9#4 then .dirUnrecognized9
  else if n.extractLsb' 2 2 = 2#2 then .dirUnrecognizedAB (n.extractLsb' 0 1)
  else .dirUnrecognizedCF (n.extractLsb' 0 2)

/-- The row of a button, applied to the byte that carries it (R82, R83). -/
def decodeButton (k : Button) (b : Byte) : Instr :=
  match k with
  | .X => .btnX b
  | .A => .btnA b
  | .B => .btnB b
  | .Y => .btnY b
  | .LB => .btnLB b
  | .RB => .btnRB b
  | .LT => .btnLT b
  | .RT => .btnRT b
  | .BACK => .btnBACK b
  | .START => .btnSTART b
  | .L3 => .btnL3 b
  | .R3 => .btnR3 b

/-- The row of the transmit-side Escape a payload byte selects (R148). -/
def decodeTx (b : Byte) : Instr :=
  if b = Config.sof then .txEsc7E
  else if b = Config.esc then .txEsc7D
  else if b = Config.eof then .txEsc7F
  else .txLit b

/-- An operation invoked by name, its operand taken from the bytes. -/
def decodeEvent : EventKind → List Byte → Decoded
  | .step, [] => .error .noByte
  | .step, b :: rest => .ok (.stepByte b, rest)
  | .submit, bs => .ok (.submit bs, [])
  | .batchSubmit, bs => .ok (.batchSubmit bs, [])
  | .decode, bs => .ok (.decodeFrame bs, [])
  | .gpUpdate, bs => .ok (.gpUpdateCall bs, [])
  | .deliver, bs => .ok (.deliver bs, [])
  | .reset, bs => .ok (.reset, bs)
  | .openSession, bs => .ok (.openSession, bs)
  | .close, bs => .ok (.close, bs)
  | .frameWrap, bs => .ok (.frameWrap bs, [])

/-- A context that reads one byte. -/
def decodeOne (f : Byte → Instr) : List Byte → Decoded
  | [] => .error .noByte
  | b :: rest => .ok (f b, rest)

/-- Format N: the nibble zero-extended to a byte. -/
def decodeNibbleByte : List Byte → Decoded
  | [] => .error .noByte
  | b :: rest =>
    if b.extractLsb' 4 4 = 0#4 then .ok (decodeNibble (b.extractLsb' 0 4), rest) else .error (.notNibble b)

/-- The decoder: the operation that the bytes are in the context, and the bytes after it. -/
def decode (p : Params) : Context → List Byte → Decoded
  | .mode m, bs => decodeOne (decodeByte p m) bs
  | .unit, bs => decodeUnit bs
  | .tag, bs => .ok (decodeTag p bs, [])
  | .pad, bs => .ok (decodePad bs, [])
  | .nibble, bs => decodeNibbleByte bs
  | .button k, bs => decodeOne (decodeButton k) bs
  | .tx, bs => decodeOne decodeTx bs
  | .event e, bs => decodeEvent e bs

/-- The context a row of the table stands in. -/
def Instr.context : Instr → Context
  | .huntSof | .huntDrop _ => .mode .idle
  | .frmEsc | .frmEof | .frmSof | .frmSofResync | .frmData _ => .mode .frame
  | .escAny _ => .mode .esc
  | .decPair _ | .decTrunc | .decLit _ => .unit
  | .tagState _ | .tagOther _ => .tag
  | .gpUpdate _ _ _ _ _ _ _ | .gpNop _ => .pad
  | .dirUp | .dirUpRight | .dirRight | .dirDownRight | .dirDown | .dirDownLeft | .dirLeft | .dirUpLeft
  | .dirNone | .dirUnrecognized9 | .dirUnrecognizedAB _ | .dirUnrecognizedCF _ => .nibble
  | .btnX _ => .button .X
  | .btnA _ => .button .A
  | .btnB _ => .button .B
  | .btnY _ => .button .Y
  | .btnLB _ => .button .LB
  | .btnRB _ => .button .RB
  | .btnLT _ => .button .LT
  | .btnRT _ => .button .RT
  | .btnBACK _ => .button .BACK
  | .btnSTART _ => .button .START
  | .btnL3 _ => .button .L3
  | .btnR3 _ => .button .R3
  | .txEsc7E | .txEsc7D | .txEsc7F | .txLit _ => .tx
  | .stepByte _ => .event .step
  | .submit _ => .event .submit
  | .batchSubmit _ => .event .batchSubmit
  | .decodeFrame _ => .event .decode
  | .gpUpdateCall _ => .event .gpUpdate
  | .deliver _ => .event .deliver
  | .reset => .event .reset
  | .openSession => .event .openSession
  | .close => .event .close
  | .frameWrap _ => .event .frameWrap

/-- The bytes of an instruction in its context, from the `encoding` strings of the table (first bit most
significant). TAG.STATE's bits are the parameter TAG_STATE (R93, format P). -/
def encode (p : Params) : Instr → List Byte
  | .huntSof => [0x7E#8]
  | .huntDrop b => [b]
  | .frmEsc => [0x7D#8]
  | .frmEof => [0x7F#8]
  | .frmSof => [0x7E#8]
  | .frmSofResync => [0x7E#8]
  | .frmData b => [b]
  | .escAny b => [b]
  | .decPair x => [0x7D#8, x]
  | .decTrunc => [0x7D#8]
  | .decLit b => [b]
  | .tagState sub => p.tagState :: sub
  | .tagOther payload => payload
  | .gpUpdate lx ly rx ry byte4 byte5 rest => lx :: ly :: rx :: ry :: byte4 :: byte5 :: rest
  | .gpNop sub => sub
  | .dirUp => [0x00#8]
  | .dirUpRight => [0x01#8]
  | .dirRight => [0x02#8]
  | .dirDownRight => [0x03#8]
  | .dirDown => [0x04#8]
  | .dirDownLeft => [0x05#8]
  | .dirLeft => [0x06#8]
  | .dirUpLeft => [0x07#8]
  | .dirNone => [0x08#8]
  | .dirUnrecognized9 => [0x09#8]
  | .dirUnrecognizedAB x => [0b0000101#7 ++ x]
  | .dirUnrecognizedCF x => [0b000011#6 ++ x]
  | .btnX b | .btnA b | .btnB b | .btnY b => [b]
  | .btnLB b | .btnRB b | .btnLT b | .btnRT b | .btnBACK b | .btnSTART b | .btnL3 b | .btnR3 b => [b]
  | .txEsc7E => [0x7E#8]
  | .txEsc7D => [0x7D#8]
  | .txEsc7F => [0x7F#8]
  | .txLit b => [b]
  | .stepByte b => [b]
  | .submit bs | .batchSubmit bs | .decodeFrame bs | .gpUpdateCall bs | .deliver bs | .frameWrap bs => bs
  | .reset | .openSession | .close => []

/-- The `k` low bytes of a number, the most significant first: the order of the table's encoding strings, in which
the first byte of a unit or of a sub-payload is the leftmost (R93). -/
def bytesOfWord : Nat → Nat → List Byte
  | 0, _ => []
  | k + 1, w => BitVec.ofNat 8 (w / 256 ^ k) :: bytesOfWord k w

/-- The context a table word of so many bits is read in, and its bytes. A word of 8 bits is an input byte, and
the mode that reads it is IDLE, the mode after reset (R42): the word alone does not say (R75, R86).
notes/assumptions/3.md. -/
def tableWord (nbits w : Nat) : Option (Context × List Byte) :=
  match nbits with
  | 4 => some (.nibble, [BitVec.ofNat 8 (w % 16)])
  | 8 => some (.mode .idle, bytesOfWord 1 w)
  | 16 => some (.unit, bytesOfWord 2 w)
  | 48 => some (.pad, bytesOfWord 6 w)
  | _ => none

/-- The instruction the decoder reads from the table word `w` of `nbits` bits, numbered as the table's encoding
strings number them; none where the decoder refuses or bytes are left over. -/
def decodeTableWord (nbits w : Nat) : Option Instr :=
  match tableWord nbits w with
  | none => none
  | some (c, bs) =>
    match decode Config.params c bs with
    | .ok (i, []) => some i
    | .ok (_, _ :: _) => none
    | .error _ => none

end Sys2Proof
end

