-- ==== Sys2Proof/Machine/State.lean ====
section
/-! DEFINITION. The state of one instance as plain data (R20 to R34), what it can stop with, and the state after
RESET (R41). -/

namespace Sys2Proof.Machine

/-- The D-pad direction: nine named directions and UNRECOGNIZED, which is distinct from NONE (R29). -/
inductive Direction where
  | UP | UP_RIGHT | RIGHT | DOWN_RIGHT | DOWN | DOWN_LEFT | LEFT | UP_LEFT | NONE | UNRECOGNIZED
  deriving DecidableEq, Repr

/-- `gp`, the GamepadState register file: 19 fields (R25). -/
structure Gamepad where
  /-- Left-stick X, raw (R26). -/
  lx : Byte
  /-- Left-stick Y, raw. -/
  ly : Byte
  /-- Right-stick X, raw. -/
  rx : Byte
  /-- Right-stick Y, raw. -/
  ry : Byte
  /-- Sub-payload byte 4 in full (R27); its low nibble is the view `gp.dpad_raw` (R28). -/
  raw4 : Byte
  /-- Sub-payload byte 5 in full (R27). -/
  raw5 : Byte
  /-- Decoded D-pad direction. -/
  dpad : Direction
  X : Bool
  A : Bool
  B : Bool
  Y : Bool
  LB : Bool
  RB : Bool
  LT : Bool
  RT : Bool
  BACK : Bool
  START : Bool
  L3 : Bool
  R3 : Bool
  deriving DecidableEq, Repr

/-- The reset values of `gp` (R41): the axes at AXIS_NEUTRAL, no direction, no button, and the raw bytes that
decode to them. -/
def Gamepad.neutral (axisNeutral : Byte) : Gamepad where
  lx := axisNeutral
  ly := axisNeutral
  rx := axisNeutral
  ry := axisNeutral
  raw4 := 0x08#8
  raw5 := 0x00#8
  dpad := .NONE
  X := false
  A := false
  B := false
  Y := false
  LB := false
  RB := false
  LT := false
  RT := false
  BACK := false
  START := false
  L3 := false
  R3 := false

/-- An output event (R12, R39). -/
inductive OutEvent where
  /-- One call of `onFrame` with a decoded payload. -/
  | frame (payload : List Byte)
  /-- One call of `onGamepadState` with a copy of `gp` just after the update. -/
  | state (g : Gamepad)
  deriving DecidableEq, Repr

/-- The working values of Decode's walk (R144): the output produced so far and the cursor. They live inside the
step that decodes (R34) and are empty at rest; a DECODE or a DEC row applied on its own leaves its answer here
(notes/assumptions/5.md). -/
structure Work where
  /-- Decode's `output`. -/
  output : List Byte
  /-- Decode's `i`. -/
  cursor : Nat
  deriving DecidableEq, Repr

/-- No decoding in progress. -/
def Work.empty : Work := ⟨[], 0⟩

/-- What is presented to the machine for one step: one of the four input events of R38, or a row of the operation
map applied on its own to bytes laid before its context (R143; notes/assumptions/4.md). -/
inductive Input where
  | byte (b : Byte)
  | reset
  | openSession
  | close
  | direct (c : Context) (bytes : List Byte)
  deriving DecidableEq, Repr

/-- The state of one instance: `(acc, mode, gp, out)` of R20, the parameters of R7, the working values of
Decode, the answer of the transmit-side reference functions, and the inputs not yet taken. -/
structure State where
  /-- The parameters (R7); no operation writes them. -/
  params : Params
  /-- The accumulator (R21): empty, or the start marker and the stuffed bytes after it. -/
  acc : List Byte
  /-- The mode register (R23). -/
  mode : Mode
  /-- The GamepadState register file (R25). -/
  gp : Gamepad
  /-- The output trace, oldest first (R33). -/
  out : List OutEvent
  /-- Decode's working values (R144). -/
  work : Work
  /-- What Escape and FrameWrap have produced (R148, R149); the block itself never writes it. -/
  tx : List Byte
  /-- The inputs still to come, the next one first: the outside world's queue, not storage of the block. -/
  inputs : List Input
  deriving DecidableEq, Repr

/-- The reasons a step can stop with a fault: none. "The block raises no exception, has no trap mechanism, no
fault state" (R210), and no behaviour is to be modelled as a fault (spec/93_implementation_defined.md). -/
inductive Fault where
  deriving DecidableEq, Repr

/-- The reasons a step has no meaning. -/
inductive Refusal where
  /-- An instruction without a meaning: raised by no arm of `exec`. Safe. -/
  | notModelled (mnemonic : String)
  /-- Raised by the accumulator primitives, and by BATCHSUBMIT's append of its chunk, when a finite ACC_DEPTH is
  exceeded: the `refuse` of R52 and R128. Safe: the spec gives the run no meaning from that point. -/
  | accOverflow
  /-- Raised by AccAppend on an empty accumulator, which its `requires acc ≠ []` shuts out (R51). Safe: no run
  reaches it (notes/assumptions/6.md). -/
  | accEmpty
  /-- Raised by a row applied outside its context: another mode, an excluded operand value, or the FRM.SOF row of
  the other configuration (R93). Safe: the row does not exist there (notes/assumptions/6.md). -/
  | outOfContext
  /-- Raised by the fetch of a row applied directly to bytes that are no operation of its context. Safe: no input
  event of R38 can raise it (notes/assumptions/4.md). -/
  | undecodable (e : DecodeError)
  /-- Raised by the fetch of a row applied directly with bytes left over. Safe, as above. -/
  | bytesLeftOver
  deriving DecidableEq, Repr

/-- The answer of one operation. -/
abbrev Result := Host.Outcome State Fault Refusal

/-- The machine right after RESET on a fresh instance (R41, R240): nothing buffered, IDLE, `gp` neutral, nothing
produced; the parameters at their defaults, TAG_STATE free; no input presented yet. -/
def State.reset : State where
  params := Config.params
  acc := []
  mode := .idle
  gp := Gamepad.neutral Config.params.axisNeutral
  out := []
  work := Work.empty
  tx := []
  inputs := []

end Sys2Proof.Machine
end

