-- ==== Sys2Proof/Machine/Ops.lean ====
section
/-! DEFINITION. The named operations over the state: one update per field, the four accumulator primitives of R51
with the capacity rule of R128, the boundary scan of R24, emission of events (R33), and the sequencing of
operations that may be refused. The block has no exception to take and none to return from (R210, R222), so no
operation of that kind stands here. -/

namespace Sys2Proof.Machine

/-- `acc <- a`. -/
def State.setAcc (a : List Byte) (s : State) : State := { s with acc := a }
/-- `mode <- m`. -/
def State.setMode (m : Mode) (s : State) : State := { s with mode := m }
/-- Write the whole register file. -/
def State.setGp (g : Gamepad) (s : State) : State := { s with gp := g }
/-- `emit e`: append the event to the output trace (R11, R33). -/
def State.emit (e : OutEvent) (s : State) : State := { s with out := s.out ++ [e] }
/-- Write Decode's working values. -/
def State.setWork (w : Work) (s : State) : State := { s with work := w }
/-- Write the answer of the transmit-side reference functions. -/
def State.setTx (t : List Byte) (s : State) : State := { s with tx := t }
/-- Replace the inputs still to come. -/
def State.setInputs (xs : List Input) (s : State) : State := { s with inputs := xs }

/-- Run one operation after another: the second runs on the first one's next state; a refusal ends both. -/
def andThen (r : Result) (f : State → Result) : Result :=
  match r with
  | .next s => f s
  | .fault e => .fault e
  | .refused e => .refused e

/-- A row applies only in its context; outside it the row does not exist (R93). -/
def inContext (applies : Prop) [Decidable applies] (r : Result) : Result :=
  if applies then r else .refused .outOfContext

/-- Room for a byte more: `len(acc) < ACC_DEPTH` (R128). -/
def State.hasRoom (s : State) : Bool :=
  match s.params.accDepth with
  | none => true
  | some d => decide (s.acc.length < d)

/-- Room for a start marker alone: `ACC_DEPTH ≥ 1` (R128). -/
def State.canRestart (s : State) : Bool :=
  match s.params.accDepth with
  | none => true
  | some d => decide (1 ≤ d)

/-- AccRestart: `acc <- [0x7E]` (R51), refused when the accumulator cannot hold one byte (R128). -/
def State.accRestart (s : State) : Result :=
  if s.canRestart then .next (s.setAcc [Config.sof]) else .refused .accOverflow

/-- AccAppend: `acc <- acc ++ [b]`, requires `acc ≠ []` (R51); refused on overflow, the append not performed
(R52, R128). -/
def State.accAppend (b : Byte) (s : State) : Result :=
  if s.acc = [] then .refused .accEmpty
  else if s.hasRoom then .next (s.setAcc (s.acc ++ [b]))
  else .refused .accOverflow

/-- AccBody: `acc[1..len(acc))`, no write (R51). -/
def State.accBody (s : State) : List Byte := s.acc.drop 1

/-- AccClear: `acc <- []` (R51). -/
def State.accClear (s : State) : State := s.setAcc []

/-- What the boundary scan of R24 finds. -/
inductive ScanResult where
  /-- No end marker: the scan ended at index i, at or one past the end. -/
  | incomplete (i : Nat)
  /-- An end marker at index i. -/
  | endAt (i : Nat)
  deriving DecidableEq, Repr

/-- The loop of Scan from index `i` on, over the bytes that stand there: an escaped pair is passed over
uninspected (R24). -/
def scanFrom (i : Nat) : List Byte → ScanResult
  | [] => .incomplete i
  | b :: rest =>
    if b = Config.esc then
      match rest with
      | [] => .incomplete (i + 2)
      | _ :: rest' => scanFrom (i + 2) rest'
    else if b = Config.eof then .endAt i
    else scanFrom (i + 1) rest

/-- Scan: from the byte after the start marker (R24). -/
def scan (a : List Byte) : ScanResult := scanFrom 1 (a.drop 1)

/-- ModeOf (R24); none where the scan meets an end marker, which "cannot occur at rest" (R22). -/
def modeOf (a : List Byte) : Option Mode :=
  if a = [] then some .idle
  else match scan a with
    | .incomplete i => if i = a.length then some .frame else some .esc
    | .endAt _ => none

/-- The form of the block's one memory, the accumulator (R50, R22): nothing, or bytes that begin exactly at a start
marker not yet closed by an end marker. -/
def Memory.wf (a : List Byte) : Bool :=
  a == [] || (a.head? == some Config.sof && (modeOf a).isSome)

/-- The view `gp.dpad_raw = gp.raw4[3:0]` (R28). -/
def Gamepad.dpadRaw (g : Gamepad) : Nibble := g.raw4.extractLsb' 0 4

/-- The payloads handed to `onFrame`, in order: the `Frame` subsequence of the trace (R33, R39). -/
def frameSink (out : List OutEvent) : List (List Byte) :=
  out.filterMap fun e => match e with
    | .frame p => some p
    | .state _ => none

/-- The states handed to `onGamepadState`, in order: the `State` subsequence of the trace (R33, R39). -/
def stateSink (out : List OutEvent) : List Gamepad :=
  out.filterMap fun e => match e with
    | .frame _ => none
    | .state g => some g

/-- The next state of an answer, if there is one. -/
def nextOf (r : Result) : Option State :=
  match r with
  | .next s => some s
  | .fault _ => none
  | .refused _ => none

/-- The refusal of an answer, if there is one. -/
def refusalOf (r : Result) : Option Refusal :=
  match r with
  | .next _ => none
  | .fault _ => none
  | .refused e => some e

end Sys2Proof.Machine
end

