-- ==== Sys2Proof/Machine/Operands.lean ====
section
/-! DEFINITION. The three kinds of operand the block assembles from input bits (R85), and the direction table. -/

namespace Sys2Proof.Machine

/-- The unescaped byte: `x XOR 0x20` (R85, R142, R147). -/
def unescape (x : Byte) : Byte := x ^^^ Config.xorMask

/-- The D-pad nibble: `byte4 AND 0x0F` (R85, R165). -/
def dpadNibble (byte4 : Byte) : Nibble := (byte4 &&& 0x0F#8).extractLsb' 0 4

/-- DirOf (R84, R165). -/
def dirOf (n : Nibble) : Direction :=
  if n = 0#4 then .UP
  else if n = 1#4 then .UP_RIGHT
  else if n = 2#4 then .RIGHT
  else if n = 3#4 then .DOWN_RIGHT
  else if n = 4#4 then .DOWN
  else if n = 5#4 then .DOWN_LEFT
  else if n = 6#4 then .LEFT
  else if n = 7#4 then .UP_LEFT
  else if n = 8#4 then .NONE
  else .UNRECOGNIZED

/-- The register code of a direction: the raw nibble, `0xF` for UNRECOGNIZED (R29, the spec's own choice). -/
def Direction.code : Direction → Nibble
  | .UP => 0#4
  | .UP_RIGHT => 1#4
  | .RIGHT => 2#4
  | .DOWN_RIGHT => 3#4
  | .DOWN => 4#4
  | .DOWN_LEFT => 5#4
  | .LEFT => 6#4
  | .UP_LEFT => 7#4
  | .NONE => 8#4
  | .UNRECOGNIZED => 0xF#4

end Sys2Proof.Machine
end

