-- ==== Sys2Proof/Machine/Flags.lean ====
section
/-! DEFINITION. The button flags (R82, R83, R85) and the block's one flag, the pending escape (R23). -/

namespace Sys2Proof.Machine

/-- The single-bit mask of a button in its byte (R30, R82, R83). -/
def buttonMask : Button → Byte
  | .X => 0x10#8
  | .A => 0x20#8
  | .B => 0x40#8
  | .Y => 0x80#8
  | .LB => 0x01#8
  | .RB => 0x02#8
  | .LT => 0x04#8
  | .RT => 0x08#8
  | .BACK => 0x10#8
  | .START => 0x20#8
  | .L3 => 0x40#8
  | .R3 => 0x80#8

/-- A button flag: `(b AND mask) ≠ 0` (R85). -/
def flagSet (b mask : Byte) : Bool := (b &&& mask) != 0#8

/-- The pending-escape flag: "The ESC mode is the block's only flag" (R23). -/
def State.escapePending (s : State) : Bool := s.mode == .esc

/-- The field of `gp` that holds a button. -/
def Gamepad.button (g : Gamepad) : Button → Bool
  | .X => g.X
  | .A => g.A
  | .B => g.B
  | .Y => g.Y
  | .LB => g.LB
  | .RB => g.RB
  | .LT => g.LT
  | .RT => g.RT
  | .BACK => g.BACK
  | .START => g.START
  | .L3 => g.L3
  | .R3 => g.R3

/-- `gp` with one button field written. -/
def Gamepad.setButton (g : Gamepad) (k : Button) (v : Bool) : Gamepad :=
  match k with
  | .X => { g with X := v }
  | .A => { g with A := v }
  | .B => { g with B := v }
  | .Y => { g with Y := v }
  | .LB => { g with LB := v }
  | .RB => { g with RB := v }
  | .LT => { g with LT := v }
  | .RT => { g with RT := v }
  | .BACK => { g with BACK := v }
  | .START => { g with START := v }
  | .L3 => { g with L3 := v }
  | .R3 => { g with R3 := v }

/-- One button row: the button is true iff the byte has the row's mask bit (R93, format M). -/
def State.latchButton (k : Button) (b : Byte) (s : State) : State :=
  s.setGp (s.gp.setButton k (flagSet b (buttonMask k)))

/-- One direction row: `gp.dpad <- d`. -/
def State.latchDpad (d : Direction) (s : State) : State :=
  s.setGp { s.gp with dpad := d }

end Sys2Proof.Machine
end

