-- ==== Sys2Proof/Machine/PayloadDecoder.lean ====
section
/-! DEFINITION. The Payload Decoder (R140 to R146): its three rows, Decode's walk over a frame, and the same
function by recursion on the sequence. -/

namespace Sys2Proof.Machine

/-- `output <- output ++ [b] ; i <- i + 1` (R141). -/
def State.takeLiteral (b : Byte) (s : State) : State :=
  s.setWork ⟨s.work.output ++ [b], s.work.cursor + 1⟩

/-- `output <- output ++ [x XOR 0x20] ; i <- i + 2` (R142). -/
def State.takePair (x : Byte) (s : State) : State :=
  s.setWork ⟨s.work.output ++ [unescape x], s.work.cursor + 2⟩

/-- The dangling escape marker produces nothing: `stop; return output`, the cursor where it is (R143, R144). -/
def State.takeDangling (s : State) : State := s

/-- Decode's walk over the bytes from the cursor on: one row a unit (R144). -/
def walkUnits : List Byte → State → State
  | [], s => s
  | b :: rest, s =>
    if b = Config.esc then
      match rest with
      | [] => s.takeDangling
      | x :: rest' => walkUnits rest' (s.takePair x)
    else walkUnits rest (s.takeLiteral b)

/-- Decode of a frame, its answer left in the working values: `output <- [] ; i <- 0`, then the walk (R144). -/
def runDecode (f : List Byte) (s : State) : State :=
  walkUnits f (s.setWork Work.empty)

/-- Decode by recursion on the sequence, the equations of R144. -/
def unstuff : List Byte → List Byte
  | [] => []
  | b :: rest =>
    if b = Config.esc then
      match rest with
      | [] => []
      | x :: rest' => unescape x :: unstuff rest'
    else b :: unstuff rest

/-- P of R145: how many escaped pairs the walk takes. -/
def pairCount : List Byte → Nat
  | [] => 0
  | b :: rest =>
    if b = Config.esc then
      match rest with
      | [] => 0
      | _ :: rest' => pairCount rest' + 1
    else pairCount rest

/-- T of R145: whether the walk ends in a dangling escape. -/
def endsDangling : List Byte → Bool
  | [] => false
  | b :: rest =>
    if b = Config.esc then
      match rest with
      | [] => true
      | _ :: rest' => endsDangling rest'
    else endsDangling rest

/-- Meaning of DEC.LIT. -/
def execDecLit (b : Byte) (s : State) : Result :=
  inContext (b ≠ Config.esc) (.next (s.takeLiteral b))

/-- Meaning of DEC.PAIR. -/
def execDecPair (x : Byte) (s : State) : Result := .next (s.takePair x)

/-- Meaning of DEC.TRUNC. -/
def execDecTrunc (s : State) : Result := .next s.takeDangling

/-- Meaning of DECODE (R144): the answer stands in the working values; `acc`, `mode`, `gp` and `out` are not
touched (R140). -/
def execDecodeFrame (f : List Byte) (s : State) : Result := .next (runDecode f s)

end Sys2Proof.Machine
end

