-- ==== Sys2Proof/Machine/GamepadDecoder.lean ====
section
/-! DEFINITION. The Gamepad State Decoder (R160 to R173): GpUpdate, its two rows, the direction rows and the button
rows. -/

namespace Sys2Proof.Machine

/-- The 19 fields a sub-payload writes, in the order of R162. -/
def unpack (lx ly rx ry byte4 byte5 : Byte) : Gamepad where
  lx := lx
  ly := ly
  rx := rx
  ry := ry
  raw4 := byte4
  raw5 := byte5
  dpad := dirOf (dpadNibble byte4)
  X := flagSet byte4 0x10#8
  A := flagSet byte4 0x20#8
  B := flagSet byte4 0x40#8
  Y := flagSet byte4 0x80#8
  LB := flagSet byte5 0x01#8
  RB := flagSet byte5 0x02#8
  LT := flagSet byte5 0x04#8
  RT := flagSet byte5 0x08#8
  BACK := flagSet byte5 0x10#8
  START := flagSet byte5 0x20#8
  L3 := flagSet byte5 0x40#8
  R3 := flagSet byte5 0x80#8

/-- GP.UPDATE: all 19 fields in one step, then `emit State(gp)` with the new values (R162, R170). -/
def State.updatePad (lx ly rx ry byte4 byte5 : Byte) (s : State) : State :=
  let g := unpack lx ly rx ry byte4 byte5
  (s.setGp g).emit (.state g)

/-- GpUpdate: GP.NOP below six bytes, otherwise GP.UPDATE from the first six (R160, R168). -/
def State.gpUpdate (sub : List Byte) (s : State) : State :=
  match sub with
  | lx :: ly :: rx :: ry :: byte4 :: byte5 :: _ => s.updatePad lx ly rx ry byte4 byte5
  | _ => s

/-- Meaning of GP.UPDATE; the bytes after the sixth are ignored (R168). -/
def execGpUpdate (lx ly rx ry byte4 byte5 : Byte) (_rest : List Byte) (s : State) : Result :=
  .next (s.updatePad lx ly rx ry byte4 byte5)

/-- Meaning of GP.NOP: nothing (R161). -/
def execGpNop (sub : List Byte) (s : State) : Result :=
  inContext (sub.length < Config.stateLen) (.next s)

/-- Meaning of GPUPDATE (R160). -/
def execGpUpdateCall (sub : List Byte) (s : State) : Result := .next (s.gpUpdate sub)

/-- Meaning of DIR.UP (R165). -/
def execDirUp (s : State) : Result := .next (s.latchDpad .UP)
/-- Meaning of DIR.UP_RIGHT. -/
def execDirUpRight (s : State) : Result := .next (s.latchDpad .UP_RIGHT)
/-- Meaning of DIR.RIGHT. -/
def execDirRight (s : State) : Result := .next (s.latchDpad .RIGHT)
/-- Meaning of DIR.DOWN_RIGHT. -/
def execDirDownRight (s : State) : Result := .next (s.latchDpad .DOWN_RIGHT)
/-- Meaning of DIR.DOWN. -/
def execDirDown (s : State) : Result := .next (s.latchDpad .DOWN)
/-- Meaning of DIR.DOWN_LEFT. -/
def execDirDownLeft (s : State) : Result := .next (s.latchDpad .DOWN_LEFT)
/-- Meaning of DIR.LEFT. -/
def execDirLeft (s : State) : Result := .next (s.latchDpad .LEFT)
/-- Meaning of DIR.UP_LEFT. -/
def execDirUpLeft (s : State) : Result := .next (s.latchDpad .UP_LEFT)
/-- Meaning of DIR.NONE. -/
def execDirNone (s : State) : Result := .next (s.latchDpad .NONE)
/-- Meaning of DIR.UNRECOGNIZED, the row `1001`. -/
def execDirUnrecognized9 (s : State) : Result := .next (s.latchDpad .UNRECOGNIZED)
/-- Meaning of DIR.UNRECOGNIZED, the row `101x`. -/
def execDirUnrecognizedAB (_x : BitVec 1) (s : State) : Result := .next (s.latchDpad .UNRECOGNIZED)
/-- Meaning of DIR.UNRECOGNIZED, the row `11xx`. -/
def execDirUnrecognizedCF (_x : BitVec 2) (s : State) : Result := .next (s.latchDpad .UNRECOGNIZED)

/-- Meaning of BTN.X (R166). -/
def execBtnX (b : Byte) (s : State) : Result := .next (s.latchButton .X b)
/-- Meaning of BTN.A. -/
def execBtnA (b : Byte) (s : State) : Result := .next (s.latchButton .A b)
/-- Meaning of BTN.B. -/
def execBtnB (b : Byte) (s : State) : Result := .next (s.latchButton .B b)
/-- Meaning of BTN.Y. -/
def execBtnY (b : Byte) (s : State) : Result := .next (s.latchButton .Y b)
/-- Meaning of BTN.LB (R167). -/
def execBtnLB (b : Byte) (s : State) : Result := .next (s.latchButton .LB b)
/-- Meaning of BTN.RB. -/
def execBtnRB (b : Byte) (s : State) : Result := .next (s.latchButton .RB b)
/-- Meaning of BTN.LT. -/
def execBtnLT (b : Byte) (s : State) : Result := .next (s.latchButton .LT b)
/-- Meaning of BTN.RT. -/
def execBtnRT (b : Byte) (s : State) : Result := .next (s.latchButton .RT b)
/-- Meaning of BTN.BACK. -/
def execBtnBACK (b : Byte) (s : State) : Result := .next (s.latchButton .BACK b)
/-- Meaning of BTN.START. -/
def execBtnSTART (b : Byte) (s : State) : Result := .next (s.latchButton .START b)
/-- Meaning of BTN.L3. -/
def execBtnL3 (b : Byte) (s : State) : Result := .next (s.latchButton .L3 b)
/-- Meaning of BTN.R3. -/
def execBtnR3 (b : Byte) (s : State) : Result := .next (s.latchButton .R3 b)

end Sys2Proof.Machine
end

