-- ==== Sys2Proof/Machine/Delivery.lean ====
section
/-! DEFINITION. Delivery and tag dispatch (R190 to R195) and the control operations RESET, OPEN, CLOSE (R196 to
R198). -/

namespace Sys2Proof.Machine

/-- The tag test and what follows it: `if len(payload) ≥ 1 and payload[0] = TAG_STATE: GpUpdate(payload[1..))`
(R190, R192, R193). -/
def State.dispatchTag (payload : List Byte) (s : State) : State :=
  match payload with
  | [] => s
  | t :: sub => if t = s.params.tagState then s.gpUpdate sub else s

/-- The first half of DELIVER: decode, then `emit Frame(payload)`. Decode's working values do not outlive it
(R34). -/
def State.handOver (raw : List Byte) (s : State) : State :=
  let d := runDecode raw s
  (d.setWork Work.empty).emit (.frame d.work.output)

/-- DELIVER (R190): decode, `Frame` event, tag test, GpUpdate. Total; reads neither `acc` nor `mode`. -/
def State.deliver (raw : List Byte) (s : State) : State :=
  (s.handOver raw).dispatchTag (runDecode raw s).work.output

/-- Several raw frames delivered in order (R125). -/
def State.deliverAll (frames : List (List Byte)) (s : State) : State :=
  match frames with
  | [] => s
  | raw :: rest => State.deliverAll rest (s.deliver raw)

/-- `acc <- [] ; mode <- IDLE`: what RESET, OPEN and CLOSE have in common. -/
def State.toIdle (s : State) : State := s.accClear.setMode .idle

/-- `gp <-` the reset values of R41, all 19 fields. -/
def State.gpReset (s : State) : State := s.setGp (Gamepad.neutral s.params.axisNeutral)

/-- Meaning of DELIVER. -/
def execDeliver (raw : List Byte) (s : State) : Result := .next (s.deliver raw)

/-- Meaning of TAG.STATE: the Gamepad State Decoder is invoked on the sub-payload (R192, R193). -/
def execTagState (sub : List Byte) (s : State) : Result := .next (s.gpUpdate sub)

/-- Meaning of TAG.OTHER: nothing after the `Frame` event (R194). -/
def execTagOther (payload : List Byte) (s : State) : Result :=
  inContext (payload.head? ≠ some s.params.tagState) (.next s)

/-- Meaning of RESET (R196). -/
def execReset (s : State) : Result := .next s.toIdle.gpReset

/-- Meaning of OPEN (R197). -/
def execOpenSession (s : State) : Result :=
  .next (if s.params.gpResetOnOpen then s.toIdle.gpReset else s.toIdle)

/-- Meaning of CLOSE (R198). -/
def execClose (s : State) : Result := .next s.toIdle

end Sys2Proof.Machine
end

