-- ==== Sys2Proof/Machine/FrameAssembler.lean ====
section
/-! DEFINITION. The Frame Assembler (R110 to R122): the seven per-byte operations, STEP, SUBMIT, and the source's
batch procedure. -/

namespace Sys2Proof.Machine

/-- Meaning of HUNT.DROP: the byte leaves no trace (R111). -/
def execHuntDrop (b : Byte) (s : State) : Result :=
  inContext (s.mode = .idle ∧ b ≠ Config.sof) (.next s)

/-- Meaning of HUNT.SOF (R112). -/
def execHuntSof (s : State) : Result :=
  inContext (s.mode = .idle) (andThen s.accRestart fun t => .next (t.setMode .frame))

/-- Meaning of FRM.DATA (R113). -/
def execFrmData (b : Byte) (s : State) : Result :=
  inContext (s.mode = .frame ∧ isReserved b = false) (s.accAppend b)

/-- Meaning of FRM.SOF, SOF_RESYNC = 0: the start marker value is data (R114). -/
def execFrmSof (s : State) : Result :=
  inContext (s.mode = .frame ∧ s.params.sofResync = false) (s.accAppend Config.sof)

/-- Meaning of FRM.SOF.RESYNC, SOF_RESYNC = 1: the partial frame is abandoned without an event (R115). -/
def execFrmSofResync (s : State) : Result :=
  inContext (s.mode = .frame ∧ s.params.sofResync = true) s.accRestart

/-- Meaning of FRM.ESC (R116). -/
def execFrmEsc (s : State) : Result :=
  inContext (s.mode = .frame) (andThen (s.accAppend Config.esc) fun t => .next (t.setMode .esc))

/-- Meaning of FRM.EOF: the frame is closed, the assembler is idle, and the raw frame is delivered (R117). -/
def execFrmEof (s : State) : Result :=
  inContext (s.mode = .frame) (.next (s.toIdle.deliver s.accBody))

/-- Meaning of ESC.ANY: the byte is stored unexamined (R118). -/
def execEscAny (b : Byte) (s : State) : Result :=
  inContext (s.mode = .esc) (andThen (s.accAppend b) fun t => .next (t.setMode .frame))

/-- Meaning of STEP: exactly one of the seven operations, by mode and byte (R110). -/
def execStepByte (b : Byte) (s : State) : Result :=
  match s.mode with
  | .idle => if b = Config.sof then execHuntSof s else execHuntDrop b s
  | .frame =>
    if b = Config.esc then execFrmEsc s
    else if b = Config.eof then execFrmEof s
    else if b = Config.sof then (if s.params.sofResync then execFrmSofResync s else execFrmSof s)
    else execFrmData b s
  | .esc => execEscAny b s

/-- STEP on every byte of a chunk in order; a refused byte ends it (R119, R128). -/
def submitBytes : List Byte → State → Result
  | [], s => .next s
  | b :: rest, s => andThen (execStepByte b s) (submitBytes rest)

/-- Meaning of SUBMIT (R119). -/
def execSubmit (chunk : List Byte) (s : State) : Result := submitBytes chunk s

/-- Steps 2 and 3 of R121: the bytes from the first start marker on, none when there is no start marker. -/
def fromSof : List Byte → List Byte
  | [] => []
  | b :: rest => if b = Config.sof then b :: rest else fromSof rest

/-- The loop of R121, at most `fuel` frames: trim, scan, extract, repeat against the remainder. -/
def batchLoop : Nat → List Byte → List Byte × List (List Byte)
  | 0, acc => (acc, [])
  | fuel + 1, acc =>
    match fromSof acc with
    | [] => ([], [])
    | b :: rest =>
      match scan (b :: rest) with
      | .incomplete _ => (b :: rest, [])
      | .endAt i =>
        let r := batchLoop fuel (rest.drop i)
        (r.1, rest.take (i - 1) :: r.2)

/-- BatchSubmit (R121): the accumulator after the chunk, and the raw frames. Each pass takes two bytes at least,
so the length of the accumulator is fuel enough. -/
def batchSubmit (acc chunk : List Byte) : List Byte × List (List Byte) :=
  batchLoop ((acc ++ chunk).length + 1) (acc ++ chunk)

/-- Room for the whole chunk, which step 1 of R121 appends before anything is discarded (R52;
notes/assumptions/7.md). -/
def State.hasRoomFor (chunk : List Byte) (s : State) : Bool :=
  match s.params.accDepth with
  | none => true
  | some d => decide (s.acc.length + chunk.length ≤ d)

/-- Meaning of BATCHSUBMIT: the source's own algorithm on the accumulator, its raw frames delivered in order; the
mode is what a rescan of the accumulator gives (R121, R24). The algorithm does not read SOF_RESYNC: under
SOF_RESYNC = 1 it runs the same, and is then another machine than SUBMIT (R115; notes/assumptions/7.md). -/
def execBatchSubmit (chunk : List Byte) (s : State) : Result :=
  if s.hasRoomFor chunk then
    let r := batchSubmit s.acc chunk
    .next (((s.setAcc r.1).setMode ((modeOf r.1).getD .frame)).deliverAll r.2)
  else .refused .accOverflow

end Sys2Proof.Machine
end

