-- ==== Sys2Proof/Machine/Transmit.lean ====
section
/-! DEFINITION. The transmit-side reference functions (R78, R148, R149): the four rows of Escape, Escape over a
payload, FrameWrap. The block never performs them; their answer stands in `tx`. -/

namespace Sys2Proof.Machine

/-- `output <- output ++ bytes`, the output of Escape. -/
def State.sendBytes (bytes : List Byte) (s : State) : State := s.setTx (s.tx ++ bytes)

/-- Escape (R148). -/
def escape : List Byte → List Byte
  | [] => []
  | b :: rest =>
    if isReserved b then Config.esc :: (b ^^^ Config.xorMask) :: escape rest else b :: escape rest

/-- FrameWrap (R149). -/
def frameWrap (p : List Byte) : List Byte := Config.sof :: (escape p ++ [Config.eof])

/-- Meaning of TX.ESC.7E (R148). -/
def execTxEsc7E (s : State) : Result := .next (s.sendBytes [0x7D#8, 0x5E#8])
/-- Meaning of TX.ESC.7D. -/
def execTxEsc7D (s : State) : Result := .next (s.sendBytes [0x7D#8, 0x5D#8])
/-- Meaning of TX.ESC.7F. -/
def execTxEsc7F (s : State) : Result := .next (s.sendBytes [0x7D#8, 0x5F#8])
/-- Meaning of TX.LIT. -/
def execTxLit (b : Byte) (s : State) : Result := inContext (isReserved b = false) (.next (s.sendBytes [b]))

/-- The transmit row a payload byte selects, run. -/
def sendByte (b : Byte) (s : State) : State :=
  if b = Config.sof then s.sendBytes [0x7D#8, 0x5E#8]
  else if b = Config.esc then s.sendBytes [0x7D#8, 0x5D#8]
  else if b = Config.eof then s.sendBytes [0x7D#8, 0x5F#8]
  else s.sendBytes [b]

/-- Meaning of FRAMEWRAP: a fresh output, the start marker, one row a byte, the end marker (R149). -/
def execFrameWrap (p : List Byte) (s : State) : Result :=
  .next ((p.foldl (fun t b => sendByte b t) (s.setTx [Config.sof])).sendBytes [Config.eof])

end Sys2Proof.Machine
end

