-- ==== Sys2Proof/Machine/Dispatch.lean ====
section
/-! DEFINITION. One arm per row of spec/opcode_table.json. -/

namespace Sys2Proof.Machine

def exec (i : Instr) (s : State) : Host.Outcome State Fault Refusal :=
  match i with
  | .huntSof => Sys2Proof.Machine.execHuntSof s
  | .huntDrop b => Sys2Proof.Machine.execHuntDrop b s
  | .frmEsc => Sys2Proof.Machine.execFrmEsc s
  | .frmEof => Sys2Proof.Machine.execFrmEof s
  | .frmSof => Sys2Proof.Machine.execFrmSof s
  | .frmSofResync => Sys2Proof.Machine.execFrmSofResync s
  | .frmData b => Sys2Proof.Machine.execFrmData b s
  | .escAny b => Sys2Proof.Machine.execEscAny b s
  | .decPair x => Sys2Proof.Machine.execDecPair x s
  | .decTrunc => Sys2Proof.Machine.execDecTrunc s
  | .decLit b => Sys2Proof.Machine.execDecLit b s
  | .tagState sub => Sys2Proof.Machine.execTagState sub s
  | .tagOther payload => Sys2Proof.Machine.execTagOther payload s
  | .gpUpdate lx ly rx ry byte4 byte5 rest => Sys2Proof.Machine.execGpUpdate lx ly rx ry byte4 byte5 rest s
  | .gpNop sub => Sys2Proof.Machine.execGpNop sub s
  | .dirUp => Sys2Proof.Machine.execDirUp s
  | .dirUpRight => Sys2Proof.Machine.execDirUpRight s
  | .dirRight => Sys2Proof.Machine.execDirRight s
  | .dirDownRight => Sys2Proof.Machine.execDirDownRight s
  | .dirDown => Sys2Proof.Machine.execDirDown s
  | .dirDownLeft => Sys2Proof.Machine.execDirDownLeft s
  | .dirLeft => Sys2Proof.Machine.execDirLeft s
  | .dirUpLeft => Sys2Proof.Machine.execDirUpLeft s
  | .dirNone => Sys2Proof.Machine.execDirNone s
  | .dirUnrecognized9 => Sys2Proof.Machine.execDirUnrecognized9 s
  | .dirUnrecognizedAB x => Sys2Proof.Machine.execDirUnrecognizedAB x s
  | .dirUnrecognizedCF x => Sys2Proof.Machine.execDirUnrecognizedCF x s
  | .btnX b => Sys2Proof.Machine.execBtnX b s
  | .btnA b => Sys2Proof.Machine.execBtnA b s
  | .btnB b => Sys2Proof.Machine.execBtnB b s
  | .btnY b => Sys2Proof.Machine.execBtnY b s
  | .btnLB b => Sys2Proof.Machine.execBtnLB b s
  | .btnRB b => Sys2Proof.Machine.execBtnRB b s
  | .btnLT b => Sys2Proof.Machine.execBtnLT b s
  | .btnRT b => Sys2Proof.Machine.execBtnRT b s
  | .btnBACK b => Sys2Proof.Machine.execBtnBACK b s
  | .btnSTART b => Sys2Proof.Machine.execBtnSTART b s
  | .btnL3 b => Sys2Proof.Machine.execBtnL3 b s
  | .btnR3 b => Sys2Proof.Machine.execBtnR3 b s
  | .txEsc7E => Sys2Proof.Machine.execTxEsc7E s
  | .txEsc7D => Sys2Proof.Machine.execTxEsc7D s
  | .txEsc7F => Sys2Proof.Machine.execTxEsc7F s
  | .txLit b => Sys2Proof.Machine.execTxLit b s
  | .stepByte b => Sys2Proof.Machine.execStepByte b s
  | .submit chunk => Sys2Proof.Machine.execSubmit chunk s
  | .batchSubmit chunk => Sys2Proof.Machine.execBatchSubmit chunk s
  | .decodeFrame f => Sys2Proof.Machine.execDecodeFrame f s
  | .gpUpdateCall sub => Sys2Proof.Machine.execGpUpdateCall sub s
  | .deliver raw => Sys2Proof.Machine.execDeliver raw s
  | .reset => Sys2Proof.Machine.execReset s
  | .openSession => Sys2Proof.Machine.execOpenSession s
  | .close => Sys2Proof.Machine.execClose s
  | .frameWrap p => Sys2Proof.Machine.execFrameWrap p s

end Sys2Proof.Machine
end

