-- ==== Sys2Proof/Machine/Fetch.lean ====
section
/-! DEFINITION. From the next input to the operation it selects (R38, R86). -/

namespace Sys2Proof.Machine

/-- The operation the next input selects, or why it selects none. A byte is read in the mode the assembler is in
(R86); `Reset`, `Open` and `Close` name their operation (R38); a row applied directly is decoded in its own
context and must take all its bytes. -/
def fetch (s : State) (x : Input) : Except Refusal Instr :=
  match x with
  | .byte b => .ok (decodeByte s.params s.mode b)
  | .reset => .ok .reset
  | .openSession => .ok .openSession
  | .close => .ok .close
  | .direct c bytes =>
    match decode s.params c bytes with
    | .error e => .error (.undecodable e)
    | .ok (i, []) => .ok i
    | .ok (_, _ :: _) => .error .bytesLeftOver

/-- Take one input: the operation it selects runs on the state from which the input is gone; an input is offered
exactly once (R57). -/
def takeInput (x : Input) (rest : List Input) (s : State) : Result :=
  match fetch s x with
  | .ok i => exec i (s.setInputs rest)
  | .error e => .refused e

/-- The state in which the next step reads a table word: a word of 8 bits is an input byte read in IDLE mode, so the
assembler is put there (after reset it is there already); any other word is laid before its own context. -/
def placeWord (s : State) (nbits w : Nat) : State :=
  match tableWord nbits w with
  | none => s
  | some (.mode .idle, [b]) => s.toIdle.setInputs (.byte b :: s.inputs)
  | some (c, bytes) => s.setInputs (.direct c bytes :: s.inputs)

end Sys2Proof.Machine
end

