-- ==== Sys2Proof/Machine/Step.lean ====
section
/-! DEFINITION. The step of the machine: one input event a step (R13). -/

namespace Sys2Proof.Machine

/-- One step: the next input is taken and its operation runs to completion (R13, R61). With no input presented
the block waits, and all state survives the wait (R229). -/
def step (s : State) : Host.Outcome State Fault Refusal :=
  match s.inputs with
  | [] => .next s
  | x :: rest => takeInput x rest s

/-- The state with one table word placed where the next step takes its input. -/
def State.withFetchWord (s : State) (nbits w : Nat) : State := placeWord s nbits w

end Sys2Proof.Machine
end

