-- ==== Sys2Proof/Laws/State.lean ====
section
/-! SUPPORT. One lemma per field per update of the state. -/

namespace Sys2Proof.Machine

section setAcc
variable (a : List Byte) (s : State)
@[simp] theorem State.setAcc_params : (s.setAcc a).params = s.params := rfl
@[simp] theorem State.setAcc_acc : (s.setAcc a).acc = a := rfl
@[simp] theorem State.setAcc_mode : (s.setAcc a).mode = s.mode := rfl
@[simp] theorem State.setAcc_gp : (s.setAcc a).gp = s.gp := rfl
@[simp] theorem State.setAcc_out : (s.setAcc a).out = s.out := rfl
@[simp] theorem State.setAcc_work : (s.setAcc a).work = s.work := rfl
@[simp] theorem State.setAcc_tx : (s.setAcc a).tx = s.tx := rfl
@[simp] theorem State.setAcc_inputs : (s.setAcc a).inputs = s.inputs := rfl
end setAcc

section setMode
variable (m : Mode) (s : State)
@[simp] theorem State.setMode_params : (s.setMode m).params = s.params := rfl
@[simp] theorem State.setMode_acc : (s.setMode m).acc = s.acc := rfl
@[simp] theorem State.setMode_mode : (s.setMode m).mode = m := rfl
@[simp] theorem State.setMode_gp : (s.setMode m).gp = s.gp := rfl
@[simp] theorem State.setMode_out : (s.setMode m).out = s.out := rfl
@[simp] theorem State.setMode_work : (s.setMode m).work = s.work := rfl
@[simp] theorem State.setMode_tx : (s.setMode m).tx = s.tx := rfl
@[simp] theorem State.setMode_inputs : (s.setMode m).inputs = s.inputs := rfl
end setMode

section setGp
variable (g : Gamepad) (s : State)
@[simp] theorem State.setGp_params : (s.setGp g).params = s.params := rfl
@[simp] theorem State.setGp_acc : (s.setGp g).acc = s.acc := rfl
@[simp] theorem State.setGp_mode : (s.setGp g).mode = s.mode := rfl
@[simp] theorem State.setGp_gp : (s.setGp g).gp = g := rfl
@[simp] theorem State.setGp_out : (s.setGp g).out = s.out := rfl
@[simp] theorem State.setGp_work : (s.setGp g).work = s.work := rfl
@[simp] theorem State.setGp_tx : (s.setGp g).tx = s.tx := rfl
@[simp] theorem State.setGp_inputs : (s.setGp g).inputs = s.inputs := rfl
end setGp

section emit
variable (e : OutEvent) (s : State)
@[simp] theorem State.emit_params : (s.emit e).params = s.params := rfl
@[simp] theorem State.emit_acc : (s.emit e).acc = s.acc := rfl
@[simp] theorem State.emit_mode : (s.emit e).mode = s.mode := rfl
@[simp] theorem State.emit_gp : (s.emit e).gp = s.gp := rfl
@[simp] theorem State.emit_out : (s.emit e).out = s.out ++ [e] := rfl
@[simp] theorem State.emit_work : (s.emit e).work = s.work := rfl
@[simp] theorem State.emit_tx : (s.emit e).tx = s.tx := rfl
@[simp] theorem State.emit_inputs : (s.emit e).inputs = s.inputs := rfl
end emit

section setWork
variable (w : Work) (s : State)
@[simp] theorem State.setWork_params : (s.setWork w).params = s.params := rfl
@[simp] theorem State.setWork_acc : (s.setWork w).acc = s.acc := rfl
@[simp] theorem State.setWork_mode : (s.setWork w).mode = s.mode := rfl
@[simp] theorem State.setWork_gp : (s.setWork w).gp = s.gp := rfl
@[simp] theorem State.setWork_out : (s.setWork w).out = s.out := rfl
@[simp] theorem State.setWork_work : (s.setWork w).work = w := rfl
@[simp] theorem State.setWork_tx : (s.setWork w).tx = s.tx := rfl
@[simp] theorem State.setWork_inputs : (s.setWork w).inputs = s.inputs := rfl
end setWork

section setTx
variable (t : List Byte) (s : State)
@[simp] theorem State.setTx_params : (s.setTx t).params = s.params := rfl
@[simp] theorem State.setTx_acc : (s.setTx t).acc = s.acc := rfl
@[simp] theorem State.setTx_mode : (s.setTx t).mode = s.mode := rfl
@[simp] theorem State.setTx_gp : (s.setTx t).gp = s.gp := rfl
@[simp] theorem State.setTx_out : (s.setTx t).out = s.out := rfl
@[simp] theorem State.setTx_work : (s.setTx t).work = s.work := rfl
@[simp] theorem State.setTx_tx : (s.setTx t).tx = t := rfl
@[simp] theorem State.setTx_inputs : (s.setTx t).inputs = s.inputs := rfl
end setTx

section setInputs
variable (xs : List Input) (s : State)
@[simp] theorem State.setInputs_params : (s.setInputs xs).params = s.params := rfl
@[simp] theorem State.setInputs_acc : (s.setInputs xs).acc = s.acc := rfl
@[simp] theorem State.setInputs_mode : (s.setInputs xs).mode = s.mode := rfl
@[simp] theorem State.setInputs_gp : (s.setInputs xs).gp = s.gp := rfl
@[simp] theorem State.setInputs_out : (s.setInputs xs).out = s.out := rfl
@[simp] theorem State.setInputs_work : (s.setInputs xs).work = s.work := rfl
@[simp] theorem State.setInputs_tx : (s.setInputs xs).tx = s.tx := rfl
@[simp] theorem State.setInputs_inputs : (s.setInputs xs).inputs = xs := rfl
end setInputs

section toIdle
variable (s : State)
@[simp] theorem State.toIdle_params : s.toIdle.params = s.params := rfl
@[simp] theorem State.toIdle_acc : s.toIdle.acc = [] := rfl
@[simp] theorem State.toIdle_mode : s.toIdle.mode = Mode.idle := rfl
@[simp] theorem State.toIdle_gp : s.toIdle.gp = s.gp := rfl
@[simp] theorem State.toIdle_out : s.toIdle.out = s.out := rfl
@[simp] theorem State.toIdle_work : s.toIdle.work = s.work := rfl
@[simp] theorem State.toIdle_tx : s.toIdle.tx = s.tx := rfl
@[simp] theorem State.toIdle_inputs : s.toIdle.inputs = s.inputs := rfl
end toIdle

section gpReset
variable (s : State)
@[simp] theorem State.gpReset_params : s.gpReset.params = s.params := rfl
@[simp] theorem State.gpReset_acc : s.gpReset.acc = s.acc := rfl
@[simp] theorem State.gpReset_mode : s.gpReset.mode = s.mode := rfl
@[simp] theorem State.gpReset_gp : s.gpReset.gp = Gamepad.neutral s.params.axisNeutral := rfl
@[simp] theorem State.gpReset_out : s.gpReset.out = s.out := rfl
@[simp] theorem State.gpReset_work : s.gpReset.work = s.work := rfl
@[simp] theorem State.gpReset_tx : s.gpReset.tx = s.tx := rfl
@[simp] theorem State.gpReset_inputs : s.gpReset.inputs = s.inputs := rfl
end gpReset

end Sys2Proof.Machine
end

