-- ==== Sys2Proof/Laws/Ops.lean ====
section
/-! SUPPORT. What the shared operations can do: sequencing, context guards, the accumulator primitives. -/

namespace Sys2Proof.Machine

@[simp] theorem andThen_next (s : State) (f : State → Result) : andThen (.next s) f = f s := rfl
@[simp] theorem andThen_refused (e : Refusal) (f : State → Result) : andThen (.refused e) f = .refused e := rfl
@[simp] theorem andThen_fault (e : Fault) (f : State → Result) : andThen (.fault e) f = .fault e := rfl

theorem andThen_assoc (r : Result) (f g : State → Result) :
    andThen (andThen r f) g = andThen r fun s => andThen (f s) g := by
  cases r <;> rfl

/-- A sequence answers a next state only through a next state of its first operation. -/
theorem andThen_eq_next_iff {r : Result} {f : State → Result} {t : State} :
    andThen r f = .next t ↔ ∃ s, r = .next s ∧ f s = .next t := by
  cases r <;> simp [andThen]

@[simp] theorem inContext_true {c : Prop} [Decidable c] (h : c) (r : Result) : inContext c r = r := if_pos h
@[simp] theorem inContext_false {c : Prop} [Decidable c] (h : ¬ c) (r : Result) :
    inContext c r = .refused .outOfContext := if_neg h

/-- A row answers a next state only in its context. -/
theorem inContext_eq_next_iff {c : Prop} [Decidable c] {r : Result} {t : State} :
    inContext c r = .next t ↔ c ∧ r = .next t := by
  by_cases h : c <;> simp [h]

/-- AccAppend performed. -/
theorem accAppend_room {s : State} (b : Byte) (h : s.acc ≠ []) (hr : s.hasRoom = true) :
    s.accAppend b = .next (s.setAcc (s.acc ++ [b])) := by
  simp [State.accAppend, h, hr]

/-- AccAppend not performed (R128). -/
theorem accAppend_full {s : State} (b : Byte) (h : s.acc ≠ []) (hr : s.hasRoom = false) :
    s.accAppend b = .refused .accOverflow := by
  simp [State.accAppend, h, hr]

/-- Everything AccAppend can do when it is performed. -/
theorem accAppend_eq_next_iff {s t : State} {b : Byte} :
    s.accAppend b = .next t ↔ s.acc ≠ [] ∧ s.hasRoom = true ∧ t = s.setAcc (s.acc ++ [b]) := by
  by_cases h : s.acc = [] <;> cases hr : s.hasRoom <;> simp [State.accAppend, h, hr, eq_comm]

/-- Everything AccRestart can do when it is performed. -/
theorem accRestart_eq_next_iff {s t : State} :
    s.accRestart = .next t ↔ s.canRestart = true ∧ t = s.setAcc [Config.sof] := by
  cases hr : s.canRestart <;> simp [State.accRestart, hr, eq_comm]

theorem hasRoom_iff {s : State} : s.hasRoom = true ↔ ∀ d ∈ s.params.accDepth, s.acc.length < d := by
  cases h : s.params.accDepth <;> simp [State.hasRoom, h]

theorem canRestart_iff {s : State} : s.canRestart = true ↔ ∀ d ∈ s.params.accDepth, 1 ≤ d := by
  cases h : s.params.accDepth <;> simp [State.canRestart, h]

@[simp] theorem Memory.wf_nil : Memory.wf [] = true := rfl
@[simp] theorem Memory.wf_sof : Memory.wf [Config.sof] = true := by decide

/-- AccRestart and AccClear leave the memory in its form. -/
theorem accRestart_wf {s t : State} (h : s.accRestart = .next t) : Memory.wf t.acc = true := by
  obtain ⟨-, rfl⟩ := accRestart_eq_next_iff.1 h
  simp

theorem accClear_wf (s : State) : Memory.wf s.accClear.acc = true := rfl

end Sys2Proof.Machine
end

