-- ==== Sys2Proof/Laws/PerInstr.lean ====
section
/-! SUPPORT. Statements made per instruction. RoundTrip: decoding the encoding of a well-formed instruction, in its
own context and under any parameters, gives the instruction back with nothing left over. -/

namespace Sys2Proof.Laws.RoundTrip

/-- The decoder gives back what the encoder was given. -/
def Statement (i : Instr) : Prop :=
  ∀ p : Params, i.wf p = true → decode p i.context (encode p i) = .ok (i, [])

theorem huntSof : Statement (.huntSof) := by
  intro p h; rfl

theorem huntDrop (b : Byte) : Statement (.huntDrop b) := by
  intro p h
  simp_all [Instr.wf, Instr.context, encode, decode, decodeOne, decodeByte]

theorem frmEsc : Statement (.frmEsc) := by
  intro p h; rfl

theorem frmEof : Statement (.frmEof) := by
  intro p h; rfl

theorem frmSof : Statement (.frmSof) := by
  intro p h
  have h : p.sofResync = false := by simpa [Instr.wf] using h
  simp [Instr.context, encode, decode, decodeOne, decodeByte, Config.sof, Config.esc, Config.eof, h]

theorem frmSofResync : Statement (.frmSofResync) := by
  intro p h
  have h : p.sofResync = true := h
  simp [Instr.context, encode, decode, decodeOne, decodeByte, Config.sof, Config.esc, Config.eof, h]

theorem frmData (b : Byte) : Statement (.frmData b) := by
  intro p h
  simp_all [Instr.wf, Instr.context, encode, decode, decodeOne, decodeByte, isReserved]

theorem escAny (b : Byte) : Statement (.escAny b) := by
  intro p h; rfl

theorem decPair (x : Byte) : Statement (.decPair x) := by
  intro p h; rfl

theorem decTrunc : Statement (.decTrunc) := by
  intro p h; rfl

theorem decLit (b : Byte) : Statement (.decLit b) := by
  intro p h
  simp_all [Instr.wf, Instr.context, encode, decode, decodeUnit]

theorem tagState (sub : List Byte) : Statement (.tagState sub) := by
  intro p h; simp [Instr.context, encode, decode, decodeTag]

theorem tagOther (payload : List Byte) : Statement (.tagOther payload) := by
  intro p h
  cases payload <;> simp_all [Instr.wf, Instr.context, encode, decode, decodeTag]

theorem gpUpdate (lx ly rx ry byte4 byte5 : Byte) (rest : List Byte) : Statement (.gpUpdate lx ly rx ry byte4 byte5 rest) := by
  intro p h; rfl

theorem gpNop (sub : List Byte) : Statement (.gpNop sub) := by
  intro p h
  match sub with
  | [] | [_] | [_, _] | [_, _, _] | [_, _, _, _] | [_, _, _, _, _] => rfl
  | _ :: _ :: _ :: _ :: _ :: _ :: r =>
    have h : r.length + 6 < 6 := of_decide_eq_true h
    omega

theorem dirUp : Statement (.dirUp) := by
  intro p h; rfl

theorem dirUpRight : Statement (.dirUpRight) := by
  intro p h; rfl

theorem dirRight : Statement (.dirRight) := by
  intro p h; rfl

theorem dirDownRight : Statement (.dirDownRight) := by
  intro p h; rfl

theorem dirDown : Statement (.dirDown) := by
  intro p h; rfl

theorem dirDownLeft : Statement (.dirDownLeft) := by
  intro p h; rfl

theorem dirLeft : Statement (.dirLeft) := by
  intro p h; rfl

theorem dirUpLeft : Statement (.dirUpLeft) := by
  intro p h; rfl

theorem dirNone : Statement (.dirNone) := by
  intro p h; rfl

theorem dirUnrecognized9 : Statement (.dirUnrecognized9) := by
  intro p h; rfl

theorem dirUnrecognizedAB (x : BitVec 1) : Statement (.dirUnrecognizedAB x) := by
  intro p _
  exact (by decide : ∀ x : BitVec 1, decodeNibbleByte [0b0000101#7 ++ x] = .ok (.dirUnrecognizedAB x, [])) x

theorem dirUnrecognizedCF (x : BitVec 2) : Statement (.dirUnrecognizedCF x) := by
  intro p _
  exact (by decide : ∀ x : BitVec 2, decodeNibbleByte [0b000011#6 ++ x] = .ok (.dirUnrecognizedCF x, [])) x

theorem btnX (b : Byte) : Statement (.btnX b) := by
  intro p h; rfl

theorem btnA (b : Byte) : Statement (.btnA b) := by
  intro p h; rfl

theorem btnB (b : Byte) : Statement (.btnB b) := by
  intro p h; rfl

theorem btnY (b : Byte) : Statement (.btnY b) := by
  intro p h; rfl

theorem btnLB (b : Byte) : Statement (.btnLB b) := by
  intro p h; rfl

theorem btnRB (b : Byte) : Statement (.btnRB b) := by
  intro p h; rfl

theorem btnLT (b : Byte) : Statement (.btnLT b) := by
  intro p h; rfl

theorem btnRT (b : Byte) : Statement (.btnRT b) := by
  intro p h; rfl

theorem btnBACK (b : Byte) : Statement (.btnBACK b) := by
  intro p h; rfl

theorem btnSTART (b : Byte) : Statement (.btnSTART b) := by
  intro p h; rfl

theorem btnL3 (b : Byte) : Statement (.btnL3 b) := by
  intro p h; rfl

theorem btnR3 (b : Byte) : Statement (.btnR3 b) := by
  intro p h; rfl

theorem txEsc7E : Statement (.txEsc7E) := by
  intro p h; rfl

theorem txEsc7D : Statement (.txEsc7D) := by
  intro p h; rfl

theorem txEsc7F : Statement (.txEsc7F) := by
  intro p h; rfl

theorem txLit (b : Byte) : Statement (.txLit b) := by
  intro p h
  simp_all [Instr.wf, Instr.context, encode, decode, decodeOne, decodeTx, isReserved]

theorem stepByte (b : Byte) : Statement (.stepByte b) := by
  intro p h; rfl

theorem submit (chunk : List Byte) : Statement (.submit chunk) := by
  intro p h; rfl

theorem batchSubmit (chunk : List Byte) : Statement (.batchSubmit chunk) := by
  intro p h; rfl

theorem decodeFrame (f : List Byte) : Statement (.decodeFrame f) := by
  intro p h; rfl

theorem gpUpdateCall (sub : List Byte) : Statement (.gpUpdateCall sub) := by
  intro p h; rfl

theorem deliver (raw : List Byte) : Statement (.deliver raw) := by
  intro p h; rfl

theorem reset : Statement (.reset) := by
  intro p h; rfl

theorem openSession : Statement (.openSession) := by
  intro p h; rfl

theorem close : Statement (.close) := by
  intro p h; rfl

theorem frameWrap (p : List Byte) : Statement (.frameWrap p) := by
  intro p h; rfl

end Sys2Proof.Laws.RoundTrip
end

