-- ==== Sys2Proof/Machine/Port.lean ====
section
/-! DEFINITION. What surrounds one instance: several inputs presented at once (R220), the suggested pins of R40, and
several instances side by side (R65, R227). -/

namespace Sys2Proof.Machine

/-- The input pins of R40 in one cycle; `rxData` is `some b` when `rx_valid = 1`. -/
structure InPins where
  rst : Bool
  close : Bool
  openPin : Bool
  rxData : Option Byte
  deriving DecidableEq, Repr

/-- Inputs presented at once "are taken in the order `Reset`, `Close`, `Open`, `Byte`, each as a step of its own"
(R220). -/
def InPins.inputs (pins : InPins) : List Input :=
  (if pins.rst then [.reset] else []) ++ (if pins.close then [.close] else [])
    ++ (if pins.openPin then [.openSession] else []) ++ (pins.rxData.map Input.byte).toList

/-- Present one cycle's pins behind the inputs already waiting. -/
def State.present (pins : InPins) (s : State) : State := s.setInputs (s.inputs ++ pins.inputs)

/-- The output pins of R40 in one cycle; `frmData` is `some b` when `frm_valid = 1`, and `gp` is the pins `gp_*`,
"the 19 fields of `gp`". -/
structure OutPins where
  frmData : Option Byte
  frmDone : Bool
  gpChanged : Bool
  gp : Gamepad
  deriving DecidableEq, Repr

/-- The output pins between steps: no event, and `gp_*` show the register file, "stable at rest". -/
def State.restPins (s : State) : OutPins := ⟨none, false, false, s.gp⟩

/-- What `gp_*` show from an event on: a `State` event's values are the new ones, a `Frame` event changes nothing
(R200). -/
def OutEvent.shown (g : Gamepad) : OutEvent → Gamepad
  | .frame _ => g
  | .state h => h

/-- One output event on the pins of R40, with `gp_*` at `g` before it: a payload byte a cycle in index order, then
`frm_done`, which "pulses also for an empty payload"; a `State` event is one pulse of `gp_changed`, at which `gp_*`
"already hold the new values" (notes/assumptions/18.md). -/
def OutEvent.cycles (g : Gamepad) : OutEvent → List OutPins
  | .frame p => p.map (fun b => ⟨some b, false, false, g⟩) ++ [⟨none, true, false, g⟩]
  | .state h => [⟨none, false, true, h⟩]

/-- Output events in order on the pins. -/
def portCycles (g : Gamepad) : List OutEvent → List OutPins
  | [] => []
  | e :: rest => e.cycles g ++ portCycles (e.shown g) rest

/-- The output pins of a step from `s` to `t`: the cycles of the events it appended, then the pins at rest. -/
def State.outCycles (s t : State) : List OutPins :=
  portCycles s.gp (t.out.drop s.out.length) ++ [t.restPins]

/-- One step of instance `k` among several; a refused step leaves them all as they are (R65: "Two instances have
disjoint (acc, mode, gp, out)"). -/
def stepInstance (k : Nat) (system : List State) : List State :=
  match system[k]? with
  | none => system
  | some s =>
    match step s with
    | .next t => system.set k t
    | .fault _ => system
    | .refused _ => system

end Sys2Proof.Machine
end

