-- ==== Sys2Proof/Machine/Streaming.lean ====
section
/-! DEFINITION. The streaming form of R152: an implementation that unstuffs on the fly. It is not the block's
state (R152 says the block's `acc` holds stuffed bytes); it stands here so that the claim of R152 can be stated. -/

namespace Sys2Proof.Machine

/-- A streaming assembler: the mode, and its accumulator, the start marker and the bytes of the open frame already
unstuffed (notes/assumptions/22.md). -/
structure Streamer where
  mode : Mode
  acc : List Byte
  deriving DecidableEq, Repr

/-- Nothing buffered. -/
def Streamer.idle : Streamer := ⟨.idle, []⟩

/-- The accumulator becomes `acc`, none where ACC_DEPTH does not hold it: the depth "counts those", the unstuffed
bytes (R152, R128). -/
def Streamer.store (p : Params) (m : Mode) (acc : List Byte) : Option (Streamer × Option (List Byte)) :=
  match p.accDepth with
  | none => some (⟨m, acc⟩, none)
  | some d => if acc.length ≤ d then some (⟨m, acc⟩, none) else none

/-- One byte of the streaming form: "in ESC.ANY store `b XOR 0x20` and do not store the `0x7D` in FRM.ESC"
(R152). The second component is the payload it delivers, if the byte closes a frame; none is the refusal of a byte
that does not fit. -/
def Streamer.step (p : Params) (b : Byte) (t : Streamer) : Option (Streamer × Option (List Byte)) :=
  match t.mode with
  | .idle => if b = Config.sof then Streamer.store p .frame [Config.sof] else some (t, none)
  | .frame =>
    if b = Config.esc then some (⟨.esc, t.acc⟩, none)
    else if b = Config.eof then some (Streamer.idle, some (t.acc.drop 1))
    else if b = Config.sof ∧ p.sofResync = true then Streamer.store p .frame [Config.sof]
    else Streamer.store p .frame (t.acc ++ [b])
  | .esc => Streamer.store p .frame (t.acc ++ [unescape b])

/-- The payloads the streaming form delivers over a byte sequence, and where it ends; none if a byte is refused. -/
def Streamer.run (p : Params) : List Byte → Streamer → Option (Streamer × List (List Byte))
  | [], t => some (t, [])
  | b :: rest, t =>
    (Streamer.step p b t).bind fun r =>
      (Streamer.run p rest r.1).map fun q => (q.1, r.2.toList ++ q.2)

/-- The streaming state that stands for a state of the block: its start marker, and the open frame unstuffed so
far. -/
def streamerOf (s : State) : Streamer := ⟨s.mode, s.acc.take 1 ++ unstuff s.accBody⟩

end Sys2Proof.Machine
end

