-- ==== Sys2Proof/Safety.lean ====
section
/-! DEFINITION. What holds at rest (R22, R24, R31, R52), what a run produces (R195), and which histories the
surrounding software is expected to present (R243). -/

namespace Sys2Proof.Machine

/-- One of the four input events of R38; a row applied directly is none. -/
def Input.isEvent : Input → Bool
  | .byte _ | .reset | .openSession | .close => true
  | .direct _ _ => false

/-- R22 and R24: `acc` is empty or begins at a start marker not yet closed by an end marker, and the mode register
is what a rescan of `acc` gives. -/
abbrev State.AccAnchored (s : State) : Prop :=
  Memory.wf s.acc = true ∧ modeOf s.acc = some s.mode

/-- R31: the decoded fields of `gp` are functions of the raw registers. -/
abbrev Gamepad.Decoded (g : Gamepad) : Prop :=
  g.dpad = dirOf g.dpadRaw ∧
  g.X = g.raw4.getLsbD 4 ∧ g.A = g.raw4.getLsbD 5 ∧ g.B = g.raw4.getLsbD 6 ∧ g.Y = g.raw4.getLsbD 7 ∧
  g.LB = g.raw5.getLsbD 0 ∧ g.RB = g.raw5.getLsbD 1 ∧ g.LT = g.raw5.getLsbD 2 ∧ g.RT = g.raw5.getLsbD 3 ∧
  g.BACK = g.raw5.getLsbD 4 ∧ g.START = g.raw5.getLsbD 5 ∧ g.L3 = g.raw5.getLsbD 6 ∧ g.R3 = g.raw5.getLsbD 7

/-- R21, R52: the accumulator never holds more than ACC_DEPTH bytes. -/
abbrev State.WithinDepth (s : State) : Prop :=
  ∀ d ∈ s.params.accDepth, s.acc.length ≤ d

/-- The byte `v` begins no unit of a body: it stands there at most as the second byte of an escaped pair. -/
def noLiteral (v : Byte) : List Byte → Bool
  | [] => true
  | b :: rest =>
    if b = Config.esc then
      match rest with
      | [] => true
      | _ :: rest' => noLiteral v rest'
    else b != v && noLiteral v rest

/-- Every escaped pair of a body has the escaped form of a reserved byte as its second byte (R151). -/
def pairsCanonical : List Byte → Bool
  | [] => true
  | b :: rest =>
    if b = Config.esc then
      match rest with
      | [] => true
      | x :: rest' => (x == 0x5E#8 || x == 0x5D#8 || x == 0x5F#8) && pairsCanonical rest'
    else pairsCanonical rest

/-- R124 (c): under SOF_RESYNC = 1 the open frame holds no literal start marker. -/
abbrev State.Resynced (s : State) : Prop :=
  s.params.sofResync = true → noLiteral Config.sof s.accBody = true

/-- A payload that updates `gp`: its tag is TAG_STATE and at least six bytes follow it (R190, R193). -/
def isStateMessage (tagState : Byte) (p : List Byte) : Bool :=
  p.head? == some tagState && decide (Config.stateLen + 1 ≤ p.length)

/-- The register file that the six bytes after a tag give. -/
def payloadPad (p : List Byte) : Gamepad :=
  unpack (p.getD 1 0#8) (p.getD 2 0#8) (p.getD 3 0#8) (p.getD 4 0#8) (p.getD 5 0#8) (p.getD 6 0#8)

/-- The events one closed frame produces: `Frame`, and `State` after it for a state message (R195). -/
def eventsOf (tagState : Byte) (p : List Byte) : List OutEvent :=
  if isStateMessage tagState p then [.frame p, .state (payloadPad p)] else [.frame p]

/-- What `gp` is after a payload is delivered. -/
def padAfter (tagState : Byte) (p : List Byte) (g : Gamepad) : Gamepad :=
  if isStateMessage tagState p then payloadPad p else g

/-- R195: "`out` is a sequence of groups, one per frame, each group `Frame` or `Frame, State`", and each group is
the one its payload determines. -/
abbrev State.OutGrouped (s : State) : Prop :=
  s.out = (frameSink s.out).flatMap (eventsOf s.params.tagState)

/-- What holds at rest when only the input events of R38 are presented. -/
structure State.Inv (s : State) : Prop where
  accAnchored : s.AccAnchored
  decoded : s.gp.Decoded
  withinDepth : s.WithinDepth
  resynced : s.Resynced
  outGrouped : s.OutGrouped
  workEmpty : s.work = Work.empty
  onlyEvents : ∀ x ∈ s.inputs, x.isEvent = true

/-- The place of a history in the grammar of R243. -/
inductive SessionPhase where
  /-- Nothing yet. -/
  | created
  /-- After `Reset` or `Open`: bytes may come. -/
  | live
  /-- After `Close`. -/
  | closed
  deriving DecidableEq, Repr

/-- One event of `Reset (Byte* Close Open)* Byte* Close?` (R243). -/
def SessionPhase.next : SessionPhase → Input → Option SessionPhase
  | .created, .reset => some .live
  | .live, .byte _ => some .live
  | .live, .close => some .closed
  | .closed, .openSession => some .live
  | _, _ => none

/-- A well-formed history from a phase on. -/
def sessionFrom : SessionPhase → List Input → Bool
  | ph, [] => ph != .created
  | ph, x :: rest =>
    match ph.next x with
    | some q => sessionFrom q rest
    | none => false

/-- A well-formed history of one instance (R243). -/
def wellFormedHistory (h : List Input) : Bool := sessionFrom .created h

end Sys2Proof.Machine
end

