-- ==== Sys2Proof/Certificates/Slice0/Obligations.lean ====
section
/-! DEFINITION. The statements about the machine, file by file of spec/. An operation's statement gives the whole next
state: what the record update does not name is unchanged, which is the operation's frame. -/

open Sys2Proof Sys2Proof.Machine

/-! ### Encoding: spec/30_encoding.md -/

/-- Words written out from the table decode to their rows (spec/30_encoding.md sections 4 and 7). -/
def Obligations.SpecWordsDecodeToTheirRows : Prop :=
  ∀ p : Params,
    decode p (.mode .idle) [0x7E#8] = .ok (.huntSof, []) ∧
    decode p (.mode .idle) [0x7F#8] = .ok (.huntDrop 0x7F#8, []) ∧
    decode p (.mode .frame) [0x7D#8] = .ok (.frmEsc, []) ∧
    decode p (.mode .frame) [0x7F#8] = .ok (.frmEof, []) ∧
    decode p (.mode .frame) [0x41#8] = .ok (.frmData 0x41#8, []) ∧
    decode p (.mode .esc) [0x7F#8] = .ok (.escAny 0x7F#8, []) ∧
    decode p .unit [0x7D#8, 0x5F#8] = .ok (.decPair 0x5F#8, []) ∧
    decode p .unit [0x7D#8] = .ok (.decTrunc, []) ∧
    decode p .tag [p.tagState, 0x0A#8] = .ok (.tagState [0x0A#8], []) ∧
    decode p .pad [0x0A#8, 0x14#8, 0x1E#8, 0x28#8, 0x24#8, 0x05#8] =
      .ok (.gpUpdate 0x0A#8 0x14#8 0x1E#8 0x28#8 0x24#8 0x05#8 [], []) ∧
    decode p .nibble [0x08#8] = .ok (.dirNone, []) ∧
    decode p .nibble [0x0B#8] = .ok (.dirUnrecognizedAB 1#1, []) ∧
    decode p (.button .A) [0x24#8] = .ok (.btnA 0x24#8, []) ∧
    decode p .tx [0x7F#8] = .ok (.txEsc7F, []) ∧
    decode p (.event .close) [] = .ok (.close, [])

/-- Decoding the encoding of any well-formed instruction gives it back, every operand at every value
(spec/30_encoding.md section 7). -/
def Obligations.DecodeOfEncodeGivesBack : Prop :=
  ∀ i : Instr, Laws.RoundTrip.Statement i

/-- What the decoder answers is well formed, stands in the context it was read in, and encodes to the bytes it was
read from: no byte sequence is read as a neighbour's (spec/30_encoding.md section 7). -/
def Obligations.EncodeOfDecodeGivesBack : Prop :=
  ∀ (p : Params) (c : Context) (bytes rest : List Byte) (i : Instr),
    decode p c bytes = .ok (i, rest) →
      i.wf p = true ∧ i.context = c ∧ encode p i ++ rest = bytes

/-- In every mode every byte value selects exactly one row (spec/30_encoding.md section 4: "The map is total"). -/
def Obligations.EveryByteSelectsExactlyOneRow : Prop :=
  ∀ (p : Params) (m : Mode) (b : Byte),
    ((decodeByte p m b).context = .mode m ∧ (decodeByte p m b).wf p = true ∧ encode p (decodeByte p m b) = [b]) ∧
    ∀ i : Instr, i.context = .mode m → i.wf p = true → encode p i = [b] → i = decodeByte p m b

/-! ### The step: spec/00_scope.md R13, spec/10_state.md section 7 -/

/-- A step takes the next input and runs exactly the operation it selects; with no input the machine waits and all
state survives. The direct application of a row is the model's own (notes/assumptions/4.md). -/
def Obligations.StepRunsTheFetchedInstruction : Prop :=
  ∀ (s : State) (rest : List Input),
    (s.inputs = [] → step s = .next s) ∧
    (∀ b, s.inputs = .byte b :: rest → step s = exec (decodeByte s.params s.mode b) { s with inputs := rest }) ∧
    (s.inputs = .reset :: rest → step s = exec .reset { s with inputs := rest }) ∧
    (s.inputs = .openSession :: rest → step s = exec .openSession { s with inputs := rest }) ∧
    (s.inputs = .close :: rest → step s = exec .close { s with inputs := rest }) ∧
    (∀ c bytes i, s.inputs = .direct c bytes :: rest → decode s.params c bytes = .ok (i, []) →
      step s = exec i { s with inputs := rest }) ∧
    (∀ c bytes i b left, s.inputs = .direct c bytes :: rest → decode s.params c bytes = .ok (i, b :: left) →
      step s = .refused .bytesLeftOver) ∧
    (∀ c bytes e, s.inputs = .direct c bytes :: rest → decode s.params c bytes = .error e →
      step s = .refused (.undecodable e))

/-- The dispatch of STEP is the operation map: the row that the mode and the byte select
(spec/40_frame_assembler.md section 2). -/
def Obligations.StepDispatchIsTheOperationMap : Prop :=
  ∀ (s : State) (b : Byte), exec (.stepByte b) s = exec (decodeByte s.params s.mode b) s

/-- A table word placed for the next step is decoded and run by it; a word of 8 bits is read in IDLE mode, the
model's choice (notes/assumptions/3.md). -/
def Obligations.PlacedWordRunsNext : Prop :=
  ∀ (s : State) (nbits w : Nat) (i : Instr),
    decodeTableWord nbits w = some i →
      step (s.withFetchWord nbits w) = exec i (if nbits = 8 then s.toIdle else s)

/-! ### The Frame Assembler: spec/40_frame_assembler.md -/

/-- R111: in IDLE mode any byte but the start marker leaves no trace; an escape marker there protects
nothing. -/
def Obligations.NoiseLeavesNoTrace : Prop :=
  ∀ (s : State), s.mode = .idle →
    (∀ b, b ≠ 0x7E#8 →
      decodeByte s.params .idle b = .huntDrop b ∧ exec (.huntDrop b) s = .next s) ∧
    exec (.submit [0x7D#8, 0x7E#8]) s = exec .huntSof s

/-- R112: in IDLE mode the start marker opens a frame. -/
def Obligations.StartMarkerOpensFrame : Prop :=
  ∀ (s : State), s.mode = .idle → (∀ d ∈ s.params.accDepth, 1 ≤ d) →
    decodeByte s.params .idle 0x7E#8 = .huntSof ∧
    exec .huntSof s = .next { s with acc := [0x7E#8], mode := .frame }

/-- R113: inside a frame a data byte is appended. -/
def Obligations.DataByteIsAppended : Prop :=
  ∀ (s : State) (b : Byte), s.mode = .frame → s.acc ≠ [] → (∀ d ∈ s.params.accDepth, s.acc.length < d) →
    b ≠ 0x7D#8 → b ≠ 0x7E#8 → b ≠ 0x7F#8 →
    decodeByte s.params .frame b = .frmData b ∧
    exec (.frmData b) s = .next { s with acc := s.acc ++ [b] }

/-- A start marker inside a frame, under both settings of SOF_RESYNC: data by default, a restart without an event
under the variant. The spec's own decision D3 (spec/92_eei_decisions.md). -/
def Obligations.StartMarkerInsideFrame : Prop :=
  ∀ (s : State), s.mode = .frame →
    (s.params.sofResync = false → s.acc ≠ [] → (∀ d ∈ s.params.accDepth, s.acc.length < d) →
      decodeByte s.params .frame 0x7E#8 = .frmSof ∧
      exec .frmSof s = .next { s with acc := s.acc ++ [0x7E#8] }) ∧
    (s.params.sofResync = true → (∀ d ∈ s.params.accDepth, 1 ≤ d) →
      decodeByte s.params .frame 0x7E#8 = .frmSofResync ∧
      exec .frmSofResync s = .next { s with acc := [0x7E#8] })

/-- R116: the escape marker is kept and the block waits for its partner, without limit. -/
def Obligations.EscapeMarkerIsKeptAndWaits : Prop :=
  ∀ (s : State),
    (s.mode = .frame → s.acc ≠ [] → (∀ d ∈ s.params.accDepth, s.acc.length < d) →
      decodeByte s.params .frame 0x7D#8 = .frmEsc ∧
      exec .frmEsc s = .next { s with acc := s.acc ++ [0x7D#8], mode := .esc }) ∧
    (s.mode = .esc → s.inputs = [] → step s = .next s)

/-- R118: the byte after an escape marker is stored unexamined, all 256 values, under both settings of
SOF_RESYNC. -/
def Obligations.EscapedByteIsStoredUnexamined : Prop :=
  ∀ (s : State) (b : Byte), s.mode = .esc → s.acc ≠ [] → (∀ d ∈ s.params.accDepth, s.acc.length < d) →
    decodeByte s.params .esc b = .escAny b ∧
    exec (.escAny b) s = .next { s with acc := s.acc ++ [b], mode := .frame }

/-- R117: the end marker closes the frame, the accumulator is emptied, and the bytes between the markers
are decoded, handed over and, for a state message, unpacked. -/
def Obligations.EndMarkerClosesAndDelivers : Prop :=
  ∀ (s : State), s.mode = .frame →
    decodeByte s.params .frame 0x7F#8 = .frmEof ∧
    exec .frmEof s = exec (.deliver (s.acc.drop 1)) { s with acc := [], mode := .idle } ∧
    exec .frmEof s = .next { s with
      acc := []
      mode := .idle
      gp := padAfter s.params.tagState (unstuff (s.acc.drop 1)) s.gp
      out := s.out ++ eventsOf s.params.tagState (unstuff (s.acc.drop 1))
      work := Work.empty }

/-- With a finite accumulator an append or a restart that does not fit is refused, and only that
(spec/40_frame_assembler.md section 9 on capacity; the spec's own decision D5). -/
def Obligations.OverflowIsRefused : Prop :=
  ∀ (s : State) (d : Nat), s.params.accDepth = some d →
    (s.acc ≠ [] → d ≤ s.acc.length → s.mode = .frame →
      (∀ b, isReserved b = false → exec (.frmData b) s = .refused .accOverflow) ∧
      exec .frmEsc s = .refused .accOverflow ∧
      (s.params.sofResync = false → exec .frmSof s = .refused .accOverflow)) ∧
    (s.acc ≠ [] → d ≤ s.acc.length → s.mode = .esc →
      ∀ b, exec (.escAny b) s = .refused .accOverflow) ∧
    (d = 0 → s.mode = .idle → exec .huntSof s = .refused .accOverflow) ∧
    (d = 0 → s.mode = .frame → s.params.sofResync = true → exec .frmSofResync s = .refused .accOverflow)

/-- A row applied outside its context is refused by name: another mode, an excluded operand, the row of the other
configuration. The model's own reading of the table's contexts (notes/assumptions/6.md). -/
def Obligations.RowsOutsideTheirContextAreRefused : Prop :=
  ∀ (s : State) (b : Byte),
    (s.mode ≠ .idle → exec .huntSof s = .refused .outOfContext ∧ exec (.huntDrop b) s = .refused .outOfContext) ∧
    (s.mode ≠ .frame →
      exec .frmEsc s = .refused .outOfContext ∧ exec .frmEof s = .refused .outOfContext ∧
      exec .frmSof s = .refused .outOfContext ∧ exec .frmSofResync s = .refused .outOfContext ∧
      exec (.frmData b) s = .refused .outOfContext) ∧
    (s.mode ≠ .esc → exec (.escAny b) s = .refused .outOfContext) ∧
    (s.params.sofResync = true → exec .frmSof s = .refused .outOfContext) ∧
    (s.params.sofResync = false → exec .frmSofResync s = .refused .outOfContext) ∧
    exec (.huntDrop 0x7E#8) s = .refused .outOfContext ∧
    (isReserved b = true →
      exec (.frmData b) s = .refused .outOfContext ∧ exec (.txLit b) s = .refused .outOfContext) ∧
    exec (.decLit 0x7D#8) s = .refused .outOfContext ∧
    (∀ sub, exec (.tagOther (s.params.tagState :: sub)) s = .refused .outOfContext) ∧
    (∀ sub : List Byte, 6 ≤ sub.length → exec (.gpNop sub) s = .refused .outOfContext)

/-- The transition table of spec/40_frame_assembler.md section 7: what a byte does to `mode` and `acc`, and that
only an end marker taken in FRAME mode produces anything. -/
def Obligations.ModeTransitionTable : Prop :=
  ∀ (s t : State) (b : Byte), exec (.stepByte b) s = .next t →
    (t.mode, t.acc) =
      (match s.mode with
        | .idle => if b = 0x7E#8 then (.frame, [0x7E#8]) else (.idle, s.acc)
        | .frame =>
          if b = 0x7D#8 then (.esc, s.acc ++ [b])
          else if b = 0x7F#8 then (.idle, [])
          else if b = 0x7E#8 ∧ s.params.sofResync = true then (.frame, [0x7E#8])
          else (.frame, s.acc ++ [b])
        | .esc => (.frame, s.acc ++ [b])) ∧
    (¬ (s.mode = .frame ∧ b = 0x7F#8) → t.out = s.out ∧ t.gp = s.gp ∧ t.work = s.work)

/-- R119: a chunk is STEP on each of its bytes in order; the empty chunk does nothing. -/
def Obligations.ChunkIsStepOnEveryByte : Prop :=
  ∀ (s : State),
    exec (.submit []) s = .next s ∧
    ∀ (b : Byte) (c : List Byte),
      exec (.submit (b :: c)) s =
        (match exec (.stepByte b) s with
          | .next t => exec (.submit c) t
          | .fault e => .fault e
          | .refused e => .refused e)

/-- Every byte and every chunk completes at rest, as long as the accumulator can hold it, and leaves the machine at
rest (spec/40_frame_assembler.md section 2, "STEP is total"). -/
def Obligations.BytesAndChunksComplete : Prop :=
  ∀ (s : State), s.AccAnchored →
    (∀ b, (∀ d ∈ s.params.accDepth, s.acc.length < d) →
      ∃ t, exec (.stepByte b) s = .next t ∧ t.AccAnchored) ∧
    ∀ c : List Byte, (∀ d ∈ s.params.accDepth, s.acc.length + c.length ≤ d) →
      ∃ t, exec (.submit c) s = .next t ∧ t.AccAnchored

/-- Chunk boundaries change nothing: any cutting of a stream gives the answer of the whole stream
(spec/40_frame_assembler.md section 8, fragmentation invariance). -/
def Obligations.ChunkBoundariesChangeNothing : Prop :=
  ∀ (s : State) (chunks : List (List Byte)),
    exec (.submit chunks.flatten) s = chunks.foldl (fun r c => andThen r (exec (.submit c))) (.next s)

/-- A run of the machine over `Byte` events is SUBMIT of their bytes (spec/00_scope.md section 4, level of the
model). -/
def Obligations.ByteEventsRunAsOneChunk : Prop :=
  ∀ (s : State) (c : List Byte) (rest : List Input),
    Host.Core.run Sys2Proof.core c.length { s with inputs := c.map Input.byte ++ rest } =
      exec (.submit c) { s with inputs := rest }

/-- The source's batch procedure (spec/40_frame_assembler.md section 8): append, trim to the first start marker or
clear, scan, keep what is unfinished, or take the frame out and repeat against the remainder; as an operation its
frames are delivered in order, and the whole next state is given: `gp`, both kinds of event, everything
(notes/assumptions/7.md). -/
def Obligations.BatchSubmitTrimsScansAndRepeats : Prop :=
  (∀ a c : List Byte,
    (0x7E#8 ∉ a ++ c → batchSubmit a c = ([], [])) ∧
    ∀ pre body, a ++ c = pre ++ 0x7E#8 :: body → 0x7E#8 ∉ pre →
      (∀ i, scan (0x7E#8 :: body) = .incomplete i → batchSubmit a c = (0x7E#8 :: body, [])) ∧
      (∀ i, scan (0x7E#8 :: body) = .endAt i →
        batchSubmit a c =
          ((batchSubmit [] (body.drop i)).1, body.take (i - 1) :: (batchSubmit [] (body.drop i)).2))) ∧
  ∀ (s : State) (c : List Byte), (∀ d ∈ s.params.accDepth, s.acc.length + c.length ≤ d) →
    ∃ m, modeOf (batchSubmit s.acc c).1 = some m ∧
      exec (.batchSubmit c) s = .next { s with
        acc := (batchSubmit s.acc c).1
        mode := m
        gp := (batchSubmit s.acc c).2.foldl (fun g f => padAfter s.params.tagState (unstuff f) g) s.gp
        out := s.out ++ (batchSubmit s.acc c).2.flatMap fun f => eventsOf s.params.tagState (unstuff f)
        work := if (batchSubmit s.acc c).2 = [] then s.work else Work.empty } ∧
      frameSink ((batchSubmit s.acc c).2.flatMap fun f => eventsOf s.params.tagState (unstuff f)) =
        (batchSubmit s.acc c).2.map unstuff

/-- The batch procedure and the per-byte machine are the same machine: from every state at rest, with
SOF_RESYNC = 0 and an unbounded accumulator, they end in the same state with the same events
(spec/40_frame_assembler.md section 8, equivalence). -/
def Obligations.BatchEqualsPerByte : Prop :=
  ∀ (s : State) (c : List Byte), s.AccAnchored → s.params.sofResync = false → s.params.accDepth = none →
    ∃ t, exec (.submit c) s = .next t ∧ exec (.batchSubmit c) s = .next t

/-- Where the batch procedure stops: its first step appends the whole chunk, and a chunk that a finite accumulator
cannot take is refused (spec/20_memory.md section 1, capacity; notes/assumptions/7.md). -/
def Obligations.BatchSubmitStops : Prop :=
  ∀ (s : State) (c : List Byte), (∃ d ∈ s.params.accDepth, d < s.acc.length + c.length) →
    exec (.batchSubmit c) s = .refused .accOverflow

/-- What the assembler delivers is cut into whole units (spec/40_frame_assembler.md section 9). Whatever is submitted
from IDLE, the raw frame that FRM.EOF then hands to DELIVER, on an end marker, rescans to FRAME, has no dangling escape
(a further escape marker would decode to nothing more), holds no end marker that begins a unit, and under
SOF_RESYNC = 1 no start marker that does. From any state: every byte keeps the form of the accumulator, and keeps a
body without a literal start marker under SOF_RESYNC = 1. -/
def Obligations.DeliveredFramesAreWholeUnits : Prop :=
  (∀ (s t : State) (c : List Byte), s.mode = .idle → s.acc = [] → exec (.submit c) s = .next t → t.mode = .frame →
    ∃ raw, t.acc = 0x7E#8 :: raw ∧
      exec (.stepByte 0x7F#8) t = exec .frmEof t ∧
      exec .frmEof t = exec (.deliver raw) { t with acc := [], mode := .idle } ∧
      modeOf (0x7E#8 :: raw) = some .frame ∧
      endsDangling raw = false ∧
      noLiteral 0x7F#8 raw = true ∧
      unstuff (raw ++ [0x7D#8]) = unstuff raw ∧
      (s.params.sofResync = true → noLiteral 0x7E#8 raw = true)) ∧
  ∀ (s t : State) (b : Byte), s.AccAnchored → s.Resynced → exec (.stepByte b) s = .next t →
    t.AccAnchored ∧ t.Resynced

/-- A stream without a start marker, submitted in IDLE mode, changes nothing (spec/40_frame_assembler.md
section 9, garbage rejection). -/
def Obligations.GarbageIsRejected : Prop :=
  ∀ (s : State) (c : List Byte), s.mode = .idle → 0x7E#8 ∉ c → exec (.submit c) s = .next s

/-- A partial frame is lost only to an end marker (which delivers it), a start marker under SOF_RESYNC = 1, or
Reset, Open, Close: every other step at most appends to it (spec/40_frame_assembler.md section 9, no timeout). -/
def Obligations.PartialFrameIsHeld : Prop :=
  ∀ (s t : State), (∀ x ∈ s.inputs, x.isEvent = true) → step s = .next t → s.mode ≠ .idle →
    s.acc <+: t.acc ∨
    ∃ x rest, s.inputs = x :: rest ∧
      ((x = .byte 0x7F#8 ∧ s.mode = .frame) ∨
       (x = .byte 0x7E#8 ∧ s.mode = .frame ∧ s.params.sofResync = true) ∨
       x = .reset ∨ x = .openSession ∨ x = .close)

/-! ### The Payload Decoder and the forward transforms: spec/41_payload_decoder.md -/

/-- R141, R142, R143: the three rows of Decode. -/
def Obligations.DecodeRowsProduceTheirBytes : Prop :=
  ∀ (s : State),
    (∀ b rest, b ≠ 0x7D#8 → decodeUnit (b :: rest) = .ok (.decLit b, rest) ∧
      exec (.decLit b) s =
        .next { s with work := ⟨s.work.output ++ [b], s.work.cursor + 1⟩ }) ∧
    (∀ x rest, decodeUnit (0x7D#8 :: x :: rest) = .ok (.decPair x, rest) ∧
      exec (.decPair x) s =
        .next { s with work := ⟨s.work.output ++ [x ^^^ 0x20#8], s.work.cursor + 2⟩ }) ∧
    decodeUnit [0x7D#8] = .ok (.decTrunc, []) ∧ exec .decTrunc s = .next s

/-- R144: Decode's walk over the units is the recursion on the sequence, it touches nothing but its own working
values, and it cuts units where the boundary scan does: both skip two bytes at an escape marker. -/
def Obligations.DecodeWalkIsTheRecursion : Prop :=
  (unstuff [] = [] ∧ unstuff [0x7D#8] = [] ∧
    (∀ x r, unstuff (0x7D#8 :: x :: r) = (x ^^^ 0x20#8) :: unstuff r) ∧
    (∀ b r, b ≠ 0x7D#8 → unstuff (b :: r) = b :: unstuff r)) ∧
  (∀ i x r, scanFrom i (0x7D#8 :: x :: r) = scanFrom (i + 2) r ∧ scanFrom i [0x7D#8] = .incomplete (i + 2)) ∧
  ∀ (s : State) (f : List Byte),
    exec (.decodeFrame f) s = .next { s with work := ⟨unstuff f, f.length - (endsDangling f).toNat⟩ }

/-- The exact length law of Decode, and that the length is kept only by frames without an escape marker
(spec/41_payload_decoder.md section 4). -/
def Obligations.DecodeLengthLaw : Prop :=
  ∀ f : List Byte,
    (unstuff f).length + pairCount f + (endsDangling f).toNat = f.length ∧
    ((unstuff f).length = f.length ↔ 0x7D#8 ∉ f)

/-- The XOR inverts bit 5 and nothing else, undoes itself, and takes the three reserved bytes out of the reserved
set (spec/41_payload_decoder.md section 4, the arithmetic). -/
def Obligations.UnescapeInvertsBitFive : Prop :=
  ∀ x : Byte,
    (∀ k, k < 8 → (unescape x).getLsbD k = (x.getLsbD k ^^ decide (k = 5))) ∧
    unescape (unescape x) = x ∧
    (x.getLsbD 5 = false → (unescape x).toNat = x.toNat + 32) ∧
    (x.getLsbD 5 = true → (unescape x).toNat = x.toNat - 32) ∧
    (isReserved x = true → isReserved (unescape x) = false)

/-- R78: what a transmitter sends for each payload byte, row by row. -/
def Obligations.TransmitRowsSendTheirBytes : Prop :=
  ∀ (s : State),
    exec .txEsc7E s = .next { s with tx := s.tx ++ [0x7D#8, 0x5E#8] } ∧
    exec .txEsc7D s = .next { s with tx := s.tx ++ [0x7D#8, 0x5D#8] } ∧
    exec .txEsc7F s = .next { s with tx := s.tx ++ [0x7D#8, 0x5F#8] } ∧
    (∀ b, b ≠ 0x7E#8 → b ≠ 0x7D#8 → b ≠ 0x7F#8 → exec (.txLit b) s = .next { s with tx := s.tx ++ [b] }) ∧
    ∀ b, exec (decodeTx b) s =
      .next { s with
        tx := s.tx ++ (if b = 0x7E#8 ∨ b = 0x7D#8 ∨ b = 0x7F#8 then [0x7D#8, b ^^^ 0x20#8] else [b]) }

/-- R148: Escape byte by byte, its length, and that no marker survives it: every `0x7D` in it begins a pair whose
second byte is an escaped form. -/
def Obligations.EscapeLeavesNoMarker : Prop :=
  ∀ p : List Byte,
    escape p = p.flatMap (fun b =>
      if b = 0x7E#8 ∨ b = 0x7D#8 ∨ b = 0x7F#8 then [0x7D#8, b ^^^ 0x20#8] else [b]) ∧
    (escape p).length = p.length + p.countP isReserved ∧
    0x7E#8 ∉ escape p ∧ 0x7F#8 ∉ escape p ∧
    ∀ k, (escape p)[k]? = some 0x7D#8 →
      ∃ x, (escape p)[k + 1]? = some x ∧ (x = 0x5E#8 ∨ x = 0x5D#8 ∨ x = 0x5F#8)

/-- FRAMEWRAP writes the start marker, the escaped payload and the end marker, and nothing else
(spec/41_payload_decoder.md section 5; the spec's own decision D23). -/
def Obligations.FrameWrapWritesTheFrame : Prop :=
  ∀ (s : State) (p : List Byte),
    exec (.frameWrap p) s = .next { s with tx := [0x7E#8] ++ escape p ++ [0x7F#8] }

/-- Decode undoes Escape on every byte sequence (spec/41_payload_decoder.md section 5, round trip (a)). -/
def Obligations.DecodeUndoesEscape : Prop :=
  ∀ p : List Byte, unstuff (escape p) = p

/-- The wire round trip: a wrapped payload submitted in IDLE mode produces exactly the events of that payload and
leaves the assembler idle and empty, under both settings of SOF_RESYNC (spec/41_payload_decoder.md section 5,
round trip (b)). -/
def Obligations.WrappedPayloadIsDelivered : Prop :=
  ∀ (s : State) (p : List Byte), s.mode = .idle → (∀ d ∈ s.params.accDepth, (escape p).length + 1 ≤ d) →
    exec (.submit (frameWrap p)) s = .next { s with
      acc := []
      mode := .idle
      gp := padAfter s.params.tagState p s.gp
      out := s.out ++ eventsOf s.params.tagState p
      work := Work.empty }

/-- Which raw frames are canonical, that is, escaped payloads (spec/41_payload_decoder.md section 5,
non-injectivity). -/
def Obligations.CanonicalFramesAreEscapes : Prop :=
  ∀ f : List Byte,
    (∃ p, f = escape p) ↔
      0x7E#8 ∉ f ∧ 0x7F#8 ∉ f ∧ endsDangling f = false ∧ pairsCanonical f = true

/-- R152's streaming form delivers the same payloads and stands for the same open frame: a simulation over every
byte sequence the block takes, from every state at rest. Its ACC_DEPTH counts unstuffed bytes: of a wrapped payload
it needs room for the payload and the start marker, whatever the escapes. -/
def Obligations.StreamingFormDeliversTheSame : Prop :=
  (∀ (s t : State) (c : List Byte), s.AccAnchored → exec (.submit c) s = .next t →
    ∃ ps, Streamer.run s.params c (streamerOf s) = some (streamerOf t, ps) ∧
      frameSink t.out = frameSink s.out ++ ps) ∧
  ∀ (p : Params) (d : Nat) (q : List Byte), p.accDepth = some d →
    (q.length + 1 ≤ d → Streamer.run p (frameWrap q) Streamer.idle = some (Streamer.idle, [q])) ∧
    (d < q.length + 1 → Streamer.run p (frameWrap q) Streamer.idle = none)

/-! ### The Gamepad State Decoder: spec/42_gamepad_decoder.md -/

/-- R162, with R163, R164, R166 and R167: GP.UPDATE writes all 19 fields and emits one `State` event with the new
values; the raw D-pad nibble is read from `raw4`. -/
def Obligations.GamepadUpdateWritesEveryField : Prop :=
  ∀ (s : State) (lx ly rx ry b4 b5 : Byte) (rest : List Byte),
    let g : Gamepad :=
      { lx := lx, ly := ly, rx := rx, ry := ry, raw4 := b4, raw5 := b5
        dpad := dirOf (b4.extractLsb' 0 4)
        X := b4.getLsbD 4, A := b4.getLsbD 5, B := b4.getLsbD 6, Y := b4.getLsbD 7
        LB := b5.getLsbD 0, RB := b5.getLsbD 1, LT := b5.getLsbD 2, RT := b5.getLsbD 3
        BACK := b5.getLsbD 4, START := b5.getLsbD 5, L3 := b5.getLsbD 6, R3 := b5.getLsbD 7 }
    exec (.gpUpdate lx ly rx ry b4 b5 rest) s = .next { s with gp := g, out := s.out ++ [.state g] } ∧
    g.dpadRaw = b4.extractLsb' 0 4

/-- R161: a sub-payload of fewer than six bytes changes nothing. -/
def Obligations.ShortSubPayloadChangesNothing : Prop :=
  ∀ (s : State) (sub : List Byte), sub.length < 6 →
    decodePad sub = .gpNop sub ∧ exec (.gpNop sub) s = .next s ∧ exec (.gpUpdateCall sub) s = .next s

/-- R160: GpUpdate selects its row by the length of the sub-payload alone. -/
def Obligations.GamepadRowIsSelectedByLength : Prop :=
  ∀ (s : State) (sub : List Byte),
    exec (.gpUpdateCall sub) s = exec (decodePad sub) s ∧
    (sub.length < 6 → exec (.gpUpdateCall sub) s = .next s) ∧
    ∀ lx ly rx ry b4 b5 rest, sub = lx :: ly :: rx :: ry :: b4 :: b5 :: rest →
      decodePad sub = .gpUpdate lx ly rx ry b4 b5 rest ∧
      exec (.gpUpdateCall sub) s =
        .next { s with
          gp := unpack lx ly rx ry b4 b5
          out := s.out ++ [.state (unpack lx ly rx ry b4 b5)] }

/-- R165: the direction rows, the table they make, and that an unrecognized nibble does not stop the update. -/
def Obligations.DirectionRowsWriteTheirDirection : Prop :=
  (∀ (s : State),
    exec .dirUp s = .next { s with gp := { s.gp with dpad := .UP } } ∧
    exec .dirUpRight s = .next { s with gp := { s.gp with dpad := .UP_RIGHT } } ∧
    exec .dirRight s = .next { s with gp := { s.gp with dpad := .RIGHT } } ∧
    exec .dirDownRight s = .next { s with gp := { s.gp with dpad := .DOWN_RIGHT } } ∧
    exec .dirDown s = .next { s with gp := { s.gp with dpad := .DOWN } } ∧
    exec .dirDownLeft s = .next { s with gp := { s.gp with dpad := .DOWN_LEFT } } ∧
    exec .dirLeft s = .next { s with gp := { s.gp with dpad := .LEFT } } ∧
    exec .dirUpLeft s = .next { s with gp := { s.gp with dpad := .UP_LEFT } } ∧
    exec .dirNone s = .next { s with gp := { s.gp with dpad := .NONE } } ∧
    exec .dirUnrecognized9 s = .next { s with gp := { s.gp with dpad := .UNRECOGNIZED } } ∧
    (∀ x, exec (.dirUnrecognizedAB x) s = .next { s with gp := { s.gp with dpad := .UNRECOGNIZED } }) ∧
    (∀ x, exec (.dirUnrecognizedCF x) s = .next { s with gp := { s.gp with dpad := .UNRECOGNIZED } }) ∧
    ∀ n, exec (decodeNibble n) s = .next { s with gp := { s.gp with dpad := dirOf n } }) ∧
  (dirOf 0#4 = .UP ∧ dirOf 1#4 = .UP_RIGHT ∧ dirOf 2#4 = .RIGHT ∧ dirOf 3#4 = .DOWN_RIGHT ∧ dirOf 4#4 = .DOWN ∧
    dirOf 5#4 = .DOWN_LEFT ∧ dirOf 6#4 = .LEFT ∧ dirOf 7#4 = .UP_LEFT ∧ dirOf 8#4 = .NONE ∧
    ∀ n : Nibble, 9 ≤ n.toNat → dirOf n = .UNRECOGNIZED) ∧
  ∀ (s : State) (lx ly rx ry b4 b5 : Byte) (rest : List Byte),
    ∃ t, exec (.gpUpdate lx ly rx ry b4 b5 rest) s = .next t ∧
      t.gp.dpad = dirOf ((b4 &&& 0x0F#8).extractLsb' 0 4) ∧ t.out = s.out ++ [.state t.gp]

/-- R166, R167: each button row writes its own field from its own bit. -/
def Obligations.ButtonRowsWriteTheirButton : Prop :=
  ∀ (s : State) (b : Byte),
    exec (.btnX b) s = .next { s with gp := { s.gp with X := b.getLsbD 4 } } ∧
    exec (.btnA b) s = .next { s with gp := { s.gp with A := b.getLsbD 5 } } ∧
    exec (.btnB b) s = .next { s with gp := { s.gp with B := b.getLsbD 6 } } ∧
    exec (.btnY b) s = .next { s with gp := { s.gp with Y := b.getLsbD 7 } } ∧
    exec (.btnLB b) s = .next { s with gp := { s.gp with LB := b.getLsbD 0 } } ∧
    exec (.btnRB b) s = .next { s with gp := { s.gp with RB := b.getLsbD 1 } } ∧
    exec (.btnLT b) s = .next { s with gp := { s.gp with LT := b.getLsbD 2 } } ∧
    exec (.btnRT b) s = .next { s with gp := { s.gp with RT := b.getLsbD 3 } } ∧
    exec (.btnBACK b) s = .next { s with gp := { s.gp with BACK := b.getLsbD 4 } } ∧
    exec (.btnSTART b) s = .next { s with gp := { s.gp with START := b.getLsbD 5 } } ∧
    exec (.btnL3 b) s = .next { s with gp := { s.gp with L3 := b.getLsbD 6 } } ∧
    exec (.btnR3 b) s = .next { s with gp := { s.gp with R3 := b.getLsbD 7 } }

/-- GP.UPDATE is its lanes: the six whole-byte copies, then the direction row of byte 4's low nibble and the twelve
button rows, then the `State` event (spec/42_gamepad_decoder.md section 4). -/
def Obligations.GamepadUpdateIsItsLanes : Prop :=
  ∀ (s : State) (lx ly rx ry b4 b5 : Byte) (rest : List Byte),
    exec (.gpUpdate lx ly rx ry b4 b5 rest) s =
      andThen
        ([decodeNibble (b4.extractLsb' 0 4), .btnX b4, .btnA b4, .btnB b4, .btnY b4, .btnLB b5, .btnRB b5,
            .btnLT b5, .btnRT b5, .btnBACK b5, .btnSTART b5, .btnL3 b5, .btnR3 b5].foldl
          (fun r i => andThen r (exec i))
          (.next { s with gp := { s.gp with lx := lx, ly := ly, rx := rx, ry := ry, raw4 := b4, raw5 := b5 } }))
        (fun t => .next { t with out := t.out ++ [.state t.gp] })

/-! ### Delivery and control: spec/43_delivery_and_control.md -/

/-- R190, R193, R194: DELIVER decodes, emits `Frame`, and unpacks the sub-payload of a state message of at least
seven bytes; any other payload changes nothing after its `Frame` event. -/
def Obligations.DeliverDecodesEmitsAndDispatches : Prop :=
  ∀ (s : State) (raw : List Byte),
    exec (.deliver raw) s = .next { s with
      gp := padAfter s.params.tagState (unstuff raw) s.gp
      out := s.out ++ eventsOf s.params.tagState (unstuff raw)
      work := Work.empty } ∧
    (∀ lx ly rx ry b4 b5 rest,
      unstuff raw = s.params.tagState :: lx :: ly :: rx :: ry :: b4 :: b5 :: rest →
      padAfter s.params.tagState (unstuff raw) s.gp = unpack lx ly rx ry b4 b5 ∧
      eventsOf s.params.tagState (unstuff raw) = [.frame (unstuff raw), .state (unpack lx ly rx ry b4 b5)]) ∧
    (((unstuff raw).length < 7 ∨ (unstuff raw).head? ≠ some s.params.tagState) →
      padAfter s.params.tagState (unstuff raw) s.gp = s.gp ∧
      eventsOf s.params.tagState (unstuff raw) = [.frame (unstuff raw)])

/-- The tag rows: TAG.STATE hands exactly the bytes after the tag to GpUpdate, TAG.OTHER does nothing
(spec/43_delivery_and_control.md section 1; the tag's value is the parameter of the spec's decision D4). -/
def Obligations.TagRowsDispatchThePayload : Prop :=
  ∀ (s : State) (sub payload : List Byte),
    decodeTag s.params (s.params.tagState :: sub) = .tagState sub ∧
    exec (.tagState sub) s = exec (.gpUpdateCall sub) s ∧
    (sub.length < 6 → exec (.tagState sub) s = .next s) ∧
    (6 ≤ sub.length → exec (.tagState sub) s = .next { s with
      gp := payloadPad (s.params.tagState :: sub)
      out := s.out ++ [.state (payloadPad (s.params.tagState :: sub))] }) ∧
    (payload.head? ≠ some s.params.tagState →
      decodeTag s.params payload = .tagOther payload ∧ exec (.tagOther payload) s = .next s)

/-- RESET, OPEN and CLOSE (spec/43_delivery_and_control.md section 2; the operations are the spec's decision D12,
their reset values D6 and D7): a partial frame is lost silently, no event is emitted, and OPEN resets `gp` exactly
when GP_RESET_ON_OPEN = 1. -/
def Obligations.ControlOperations : Prop :=
  ∀ (s : State),
    exec .reset s =
      .next { s with acc := [], mode := .idle, gp := Gamepad.neutral s.params.axisNeutral } ∧
    exec .close s = .next { s with acc := [], mode := .idle } ∧
    (s.params.gpResetOnOpen = true → exec .openSession s =
      .next { s with acc := [], mode := .idle, gp := Gamepad.neutral s.params.axisNeutral }) ∧
    (s.params.gpResetOnOpen = false → exec .openSession s = .next { s with acc := [], mode := .idle })

/-- The reset state (spec/10_state.md section 8; its numbers are the spec's decisions D6 and D7), and that RESET
brings `acc`, `mode` and `gp` of any state to it and leaves the events already produced where they are. -/
def Obligations.ResetStateIsNeutral : Prop :=
  (State.reset.acc = [] ∧ State.reset.mode = .idle ∧ State.reset.out = [] ∧ State.reset.work = Work.empty ∧
    State.reset.gp =
      { lx := 0x80#8, ly := 0x80#8, rx := 0x80#8, ry := 0x80#8, raw4 := 0x08#8, raw5 := 0x00#8, dpad := .NONE
        X := false, A := false, B := false, Y := false, LB := false, RB := false, LT := false, RT := false
        BACK := false, START := false, L3 := false, R3 := false } ∧
    State.reset.gp.dpadRaw = 8#4) ∧
  ∀ (s : State), s.params = State.reset.params →
    ∃ t, exec .reset s = .next t ∧ t.acc = State.reset.acc ∧ t.mode = State.reset.mode ∧ t.gp = State.reset.gp ∧
      t.out = s.out

/-! ### Whole-machine rules: spec/10_state.md, spec/60_exceptions.md, spec/70_reset_and_hazards.md -/

/-- The invariant holds at reset. -/
def Obligations.ResetMeetsTheInvariant : Prop := State.reset.Inv

/-- Every step on the input events of R38 keeps what holds at rest: the accumulator begins at an unclosed start
marker and the mode is what a rescan gives (R22, R24), the decoded fields of `gp` follow its raw registers (R31),
ACC_DEPTH is kept, and the trace is the events of its frames (R195). -/
def Obligations.EveryStepKeepsTheInvariant : Prop :=
  ∀ s t : State, s.Inv → step s = .next t → t.Inv

/-- With an unbounded accumulator no input event stops the machine (spec/60_exceptions.md section 1: "Every input
event has a defined next state"). -/
def Obligations.UnboundedMachineNeverStops : Prop :=
  ∀ s : State, s.Inv → s.params.accDepth = none → ∃ t, step s = .next t

/-- The only stop at rest is the overflow of a finite accumulator, and only a byte can cause it
(spec/60_exceptions.md section 1). -/
def Obligations.OverflowIsTheOnlyStop : Prop :=
  ∀ s : State, s.Inv →
    (∀ e, step s ≠ .fault e) ∧
    ∀ e, step s = .refused e →
      e = .accOverflow ∧ ∃ d b rest, s.params.accDepth = some d ∧ d ≤ s.acc.length ∧ s.inputs = .byte b :: rest

/-- The output trace is append-only, and no operation writes the parameters or takes an input
(spec/10_state.md sections 5 and 6). -/
def Obligations.OutputIsAppendOnly : Prop :=
  ∀ (i : Instr) (s t : State), exec i s = .next t →
    s.out <+: t.out ∧ t.params = s.params ∧ t.inputs = s.inputs

/-- No step writes `gp` except through a delivered state message of at least seven bytes, RESET, or OPEN under
GP_RESET_ON_OPEN = 1 (spec/10_state.md section 4). -/
def Obligations.GamepadIsWrittenOnlyByStateMessages : Prop :=
  ∀ s t : State, (∀ x ∈ s.inputs, x.isEvent = true) → step s = .next t → t.gp ≠ s.gp →
    ∃ x rest, s.inputs = x :: rest ∧
      (x = .reset ∨ (x = .openSession ∧ s.params.gpResetOnOpen = true) ∨
       (x = .byte 0x7F#8 ∧ s.mode = .frame ∧
        isStateMessage s.params.tagState (unstuff s.accBody) = true ∧
        t.gp = payloadPad (unstuff s.accBody)))

/-- The block compares the tag with TAG_STATE and with nothing else: the seven other tag parameters change no
operation (spec/30_encoding.md section 2, the tag enumeration). -/
def Obligations.OtherTagsAreNeverRead : Prop :=
  ∀ (i : Instr) (s : State) (q : Params),
    q.tagState = s.params.tagState → q.accDepth = s.params.accDepth → q.axisNeutral = s.params.axisNeutral →
    q.sofResync = s.params.sofResync → q.gpResetOnOpen = s.params.gpResetOnOpen →
    exec i { s with params := q } =
      (match exec i s with
        | .next t => .next { t with params := q }
        | .fault e => .fault e
        | .refused e => .refused e)

/-- From any state at rest, an end marker (after one byte whatever it is, when an escape is pending) brings the
block to IDLE with at most one frame of garbage delivered, and the next wrapped payload is delivered intact
(spec/60_exceptions.md section 4, recovery). -/
def Obligations.BlockResynchronises : Prop :=
  ∀ (s : State) (x : Byte) (p : List Byte), s.AccAnchored →
    (∀ d ∈ s.params.accDepth, s.acc.length + 1 ≤ d ∧ (escape p).length + 1 ≤ d) →
    ∃ t, exec (.submit ((match s.mode with
          | .idle => []
          | .frame => [0x7F#8]
          | .esc => [x, 0x7F#8]) ++ frameWrap p)) s = .next t ∧
      t.acc = [] ∧ t.mode = .idle ∧
      frameSink t.out = frameSink s.out ++ (match s.mode with
          | .idle => []
          | .frame => [unstuff s.accBody]
          | .esc => [unstuff (s.accBody ++ [x])]) ++ [p]

/-- After a lost end marker the next frame is merged into the open one by default, the start marker between them a
data byte; under SOF_RESYNC = 1 the open frame is dropped and the next one delivered intact
(spec/70_reset_and_hazards.md section 3; the spec's own decision D3). -/
def Obligations.LostEndMarkerMergesOrDrops : Prop :=
  ∀ (s : State) (a p : List Byte), s.mode = .frame → s.acc = 0x7E#8 :: a → endsDangling a = false →
    (∀ d ∈ s.params.accDepth, s.acc.length + (escape p).length + 1 ≤ d) →
    (s.params.sofResync = false →
      exec (.submit (frameWrap p)) s = .next { s with
        acc := []
        mode := .idle
        gp := padAfter s.params.tagState (unstuff a ++ 0x7E#8 :: p) s.gp
        out := s.out ++ eventsOf s.params.tagState (unstuff a ++ 0x7E#8 :: p)
        work := Work.empty }) ∧
    (s.params.sofResync = true →
      exec (.submit (frameWrap p)) s = .next { s with
        acc := []
        mode := .idle
        gp := padAfter s.params.tagState p s.gp
        out := s.out ++ eventsOf s.params.tagState p
        work := Work.empty })

/-- Every well-formed history of an instance (spec/70_reset_and_hazards.md section 2, session life cycle; the spec's
own decision D12) runs to its end from any state at rest with an unbounded accumulator, leaves the machine at rest,
and leaves nothing of an open frame behind when it ends with `Close`. -/
def Obligations.SessionsRunToTheirEnd : Prop :=
  ∀ (s : State) (h : List Input), s.Inv → s.params.accDepth = none → wellFormedHistory h = true →
    ∃ t, Host.Core.run Sys2Proof.core h.length { s with inputs := h } = .next t ∧
      t.Inv ∧ t.inputs = [] ∧ (h.getLast? = some .close → t.acc = [] ∧ t.mode = .idle)

/-- Inputs presented at once are taken in the order Reset, Close, Open, Byte, each as a step of its own, whichever of
the pins are asserted (spec/60_exceptions.md section 3; the spec's own decision D14): they queue up behind the inputs
already waiting, in that order, each asserted one once; and the steps that take them are those operations one after
another, the ones not asserted left out. -/
def Obligations.SimultaneousInputsAreOrdered : Prop :=
  ∀ (s : State) (pins : InPins),
    (s.present pins).inputs = s.inputs ++ pins.inputs ∧
    pins.inputs.Sublist ([.reset, .close, .openSession] ++ pins.rxData.toList.map Input.byte) ∧
    (.reset ∈ pins.inputs ↔ pins.rst = true) ∧ (.close ∈ pins.inputs ↔ pins.close = true) ∧
    (.openSession ∈ pins.inputs ↔ pins.openPin = true) ∧
    (∀ b, .byte b ∈ pins.inputs ↔ pins.rxData = some b) ∧
    (∀ x ∈ pins.inputs, x.isEvent = true) ∧
    (s.inputs = [] → Host.Core.run Sys2Proof.core pins.inputs.length (s.present pins) =
      andThen
        (andThen
          (andThen (if pins.rst then exec .reset s else .next s)
            fun t => if pins.close then exec .close t else .next t)
          fun t => if pins.openPin then exec .openSession t else .next t)
        fun t => match pins.rxData with
          | none => .next t
          | some b => exec (.stepByte b) t) ∧
    (∀ b, s.inputs = [] → step (s.present ⟨false, true, false, some b⟩) =
      .next { s with acc := [], mode := .idle, inputs := [.byte b] })

/-- Instances share nothing: a step of one leaves every other as it is, and is the step of that instance alone
(spec/20_memory.md section 5). -/
def Obligations.InstancesShareNothing : Prop :=
  ∀ (system : List State) (k : Nat),
    (stepInstance k system).length = system.length ∧
    (∀ j, j ≠ k → (stepInstance k system)[j]? = system[j]?) ∧
    ∀ s t, system[k]? = some s → step s = .next t → (stepInstance k system)[k]? = some t
end

