-- ==== Sys2Proof/Laws/Units.lean ====
section
/-! SUPPORT. How a body is cut into units: the unit equations of every function that walks a body, the induction
over units, what one more byte does to Decode, to the pending escape and to the literal test, and what the boundary
scan finds (R24, R87, R144). -/

namespace Sys2Proof.Machine

open Config (esc sof eof)

@[simp] theorem eof_ne_esc : ¬ (eof = esc) := by decide
@[simp] theorem sof_ne_esc : ¬ (sof = esc) := by decide
@[simp] theorem sof_ne_eof : ¬ (sof = eof) := by decide

/-- Induction over the units of a body (R77): nothing, a dangling escape, an escaped pair, a literal. -/
theorem unitInduction {P : List Byte → Prop} (nil : P []) (dangling : P [esc])
    (pair : ∀ x r, P r → P (esc :: x :: r)) (lit : ∀ b r, ¬ (b = esc) → P r → P (b :: r)) (f : List Byte) : P f := by
  induction f using unstuff.induct with
  | case1 => exact nil
  | case2 => exact dangling
  | case3 x r ih => exact pair x r ih
  | case4 b r h ih => exact lit b r h ih

@[simp] theorem unstuff_nil : unstuff [] = [] := rfl
@[simp] theorem unstuff_dangling : unstuff [esc] = [] := rfl
@[simp] theorem unstuff_pair (x : Byte) (r : List Byte) : unstuff (esc :: x :: r) = unescape x :: unstuff r := rfl
theorem unstuff_lit {b : Byte} (r : List Byte) (h : ¬ (b = esc)) : unstuff (b :: r) = b :: unstuff r := by
  cases r <;> simp [unstuff, h]

@[simp] theorem endsDangling_nil : endsDangling [] = false := rfl
@[simp] theorem endsDangling_dangling : endsDangling [esc] = true := rfl
@[simp] theorem endsDangling_pair (x : Byte) (r : List Byte) : endsDangling (esc :: x :: r) = endsDangling r := rfl
theorem endsDangling_lit {b : Byte} (r : List Byte) (h : ¬ (b = esc)) : endsDangling (b :: r) = endsDangling r := by
  cases r <;> simp [endsDangling, h]

@[simp] theorem noLiteral_nil (v : Byte) : noLiteral v [] = true := rfl
@[simp] theorem noLiteral_dangling (v : Byte) : noLiteral v [esc] = true := rfl
@[simp] theorem noLiteral_pair (v : Byte) (x : Byte) (r : List Byte) : noLiteral v (esc :: x :: r) = noLiteral v r := rfl
theorem noLiteral_lit (v : Byte) {b : Byte} (r : List Byte) (h : ¬ (b = esc)) : noLiteral v (b :: r) = (b != v && noLiteral v r) := by
  cases r <;> simp [noLiteral, h]

@[simp] theorem pairsCanonical_nil : pairsCanonical [] = true := rfl
@[simp] theorem pairsCanonical_dangling : pairsCanonical [esc] = true := rfl
@[simp] theorem pairsCanonical_pair (x : Byte) (r : List Byte) : pairsCanonical (esc :: x :: r) = ((x == 0x5E#8 || x == 0x5D#8 || x == 0x5F#8) && pairsCanonical r) := rfl
theorem pairsCanonical_lit {b : Byte} (r : List Byte) (h : ¬ (b = esc)) : pairsCanonical (b :: r) = pairsCanonical r := by
  cases r <;> simp [pairsCanonical, h]

@[simp] theorem pairCount_nil : pairCount [] = 0 := rfl
@[simp] theorem pairCount_dangling : pairCount [esc] = 0 := rfl
@[simp] theorem pairCount_pair (x : Byte) (r : List Byte) : pairCount (esc :: x :: r) = pairCount r + 1 := rfl
theorem pairCount_lit {b : Byte} (r : List Byte) (h : ¬ (b = esc)) : pairCount (b :: r) = pairCount r := by
  cases r <;> simp [pairCount, h]

@[simp] theorem scanFrom_nil (i : Nat) : scanFrom i [] = .incomplete i := rfl
@[simp] theorem scanFrom_dangling (i : Nat) : scanFrom i [esc] = .incomplete (i + 2) := rfl
@[simp] theorem scanFrom_pair (i : Nat) (x : Byte) (r : List Byte) :
    scanFrom i (esc :: x :: r) = scanFrom (i + 2) r := rfl
@[simp] theorem scanFrom_eof (i : Nat) (r : List Byte) : scanFrom i (eof :: r) = .endAt i := by
  cases r <;> rfl
theorem scanFrom_lit {b : Byte} (i : Nat) (r : List Byte) (h : ¬ (b = esc)) (he : ¬ (b = eof)) :
    scanFrom i (b :: r) = scanFrom (i + 1) r := by
  cases r <;> simp [scanFrom, h, he]

@[simp] theorem walkUnits_nil (s : State) : walkUnits [] s = s := rfl
@[simp] theorem walkUnits_dangling (s : State) : walkUnits [esc] s = s.takeDangling := rfl
@[simp] theorem walkUnits_pair (x : Byte) (r : List Byte) (s : State) :
    walkUnits (esc :: x :: r) s = walkUnits r (s.takePair x) := rfl
theorem walkUnits_lit {b : Byte} (r : List Byte) (s : State) (h : ¬ (b = esc)) :
    walkUnits (b :: r) s = walkUnits r (s.takeLiteral b) := by
  cases r <;> simp [walkUnits, h]

/-- One more byte at the end of a body, as Decode sees it. -/
theorem unstuff_append_byte (f : List Byte) (b : Byte) :
    unstuff (f ++ [b]) =
      unstuff f ++ (if endsDangling f then [unescape b] else if b = esc then [] else [b]) := by
  induction f using unitInduction with
  | nil => by_cases h : b = esc <;> simp [h, unstuff_lit]
  | dangling => simp
  | pair x r ih => simp only [List.cons_append, unstuff_pair, ih]; rfl
  | lit c r h ih => simp [unstuff_lit _ h, endsDangling_lit _ h, ih]

/-- One more byte ends a pending escape; only an escape marker begins one. -/
theorem endsDangling_append_byte (f : List Byte) (b : Byte) :
    endsDangling (f ++ [b]) = (!endsDangling f && b == esc) := by
  induction f using unitInduction with
  | nil => by_cases h : b = esc <;> simp [h, endsDangling_lit]
  | dangling => simp
  | pair x r ih => simp [ih]
  | lit c r h ih => simp [endsDangling_lit _ h, ih]

/-- One more byte is a literal `v` only when no escape is pending. -/
theorem noLiteral_append_byte (v : Byte) (f : List Byte) (b : Byte) :
    noLiteral v (f ++ [b]) = (noLiteral v f && (endsDangling f || b == esc || b != v)) := by
  induction f using unitInduction with
  | nil => by_cases h : b = esc <;> simp [h, noLiteral_lit]
  | dangling => simp
  | pair x r ih => simp [ih]
  | lit c r h ih => simp [noLiteral_lit _ _ h, endsDangling_lit _ h, ih, Bool.and_assoc]

/-- The scan of a body without a literal end marker ends at its end, or one past it when an escape is pending. -/
theorem scanFrom_open {f : List Byte} (i : Nat) (h : noLiteral eof f = true) :
    scanFrom i f = .incomplete (i + f.length + (endsDangling f).toNat) := by
  induction f using unitInduction generalizing i with
  | nil => simp
  | dangling => simp
  | pair x r ih => simp [ih (i + 2) (by simpa using h)]; omega
  | lit c r hc ih =>
    simp only [noLiteral_lit _ _ hc, Bool.and_eq_true, bne_iff_ne, ne_eq] at h
    simp [scanFrom_lit _ _ hc h.1, endsDangling_lit _ hc, ih (i + 1) h.2]
    omega

/-- The scan of a body with a literal end marker finds one. -/
theorem scanFrom_closed {f : List Byte} (i : Nat) (h : noLiteral eof f = false) :
    ∃ j, scanFrom i f = .endAt j := by
  induction f using unitInduction generalizing i with
  | nil => simp at h
  | dangling => simp at h
  | pair x r ih => simpa using ih (i + 2) (by simpa using h)
  | lit c r hc ih =>
    by_cases he : c = eof
    · exact ⟨i, by simp [he]⟩
    · rw [scanFrom_lit _ _ hc he]
      exact ih _ (by simpa [noLiteral_lit _ _ hc, he] using h)

/-- ModeOf of an open frame, in terms of its body. -/
theorem modeOf_sof_cons (f : List Byte) :
    modeOf (sof :: f) =
      if noLiteral eof f then some (if endsDangling f then .esc else .frame) else none := by
  cases h : noLiteral eof f
  · obtain ⟨j, hj⟩ := scanFrom_closed 1 h
    simp [modeOf, scan, hj]
  · simp only [modeOf, scan, reduceCtorEq, if_false, List.drop_succ_cons, List.drop_zero, scanFrom_open 1 h,
      List.length_cons, if_true]
    cases endsDangling f <;> simp
    omega

@[simp] theorem modeOf_nil : modeOf [] = some .idle := rfl

/-- The state at rest, by mode: IDLE with nothing held, or an open frame (R22, R23). -/
theorem accAnchored_cases {s : State} (h : s.AccAnchored) :
    (s.mode = .idle ∧ s.acc = []) ∨
    (s.mode = .frame ∧ ∃ f, s.acc = sof :: f ∧ noLiteral eof f = true ∧ endsDangling f = false) ∨
    (s.mode = .esc ∧ ∃ f, s.acc = sof :: f ∧ noLiteral eof f = true ∧ endsDangling f = true) := by
  obtain ⟨hw, hm⟩ := h
  match ha : s.acc with
  | [] => rw [ha] at hm; simp at hm; exact .inl ⟨hm.symm, rfl⟩
  | b :: f =>
    rw [ha] at hw hm
    simp [Memory.wf] at hw
    obtain ⟨rfl, -⟩ := hw
    rw [modeOf_sof_cons] at hm
    cases hl : noLiteral eof f <;> cases hd : endsDangling f <;> simp [hl, hd] at hm
    · exact .inr (.inl ⟨hm.symm, f, rfl, hl, hd⟩)
    · exact .inr (.inr ⟨hm.symm, f, rfl, hl, hd⟩)

theorem accAnchored_idle {s : State} (hm : s.mode = .idle) (ha : s.acc = []) : s.AccAnchored := by
  simp [State.AccAnchored, hm, ha]

theorem accAnchored_open {s : State} {f : List Byte} (ha : s.acc = sof :: f) (hl : noLiteral eof f = true)
    (hm : s.mode = if endsDangling f then .esc else .frame) : s.AccAnchored := by
  simp [State.AccAnchored, ha, Memory.wf, modeOf_sof_cons, hl, hm]

theorem endsDangling_le (f : List Byte) : (endsDangling f).toNat ≤ f.length := by
  cases f with
  | nil => simp
  | cons b r => exact (Bool.toNat_le _).trans (by simp)

/-- Decode's walk takes the units of `f` one after another and stops at a dangling escape. -/
theorem walkUnits_eq (f : List Byte) (s : State) :
    walkUnits f s = s.setWork ⟨s.work.output ++ unstuff f, s.work.cursor + (f.length - (endsDangling f).toNat)⟩ := by
  induction f using unitInduction generalizing s with
  | nil => simp [State.setWork]
  | dangling => simp [State.takeDangling, State.setWork]
  | pair x r ih =>
    have := endsDangling_le r
    simp [ih, State.takePair, State.setWork]
    omega
  | lit c r h ih =>
    have := endsDangling_le r
    simp [walkUnits_lit _ _ h, unstuff_lit _ h, endsDangling_lit _ h, ih, State.takeLiteral, State.setWork]
    omega

/-- What DECODE leaves. -/
theorem runDecode_eq (f : List Byte) (s : State) :
    runDecode f s = s.setWork ⟨unstuff f, f.length - (endsDangling f).toNat⟩ := by
  simp [runDecode, walkUnits_eq, Work.empty, State.setWork]

end Sys2Proof.Machine
end

