-- ==== Sys2Proof/Laws/Delivery.lean ====
section
/-! SUPPORT. What GpUpdate, DELIVER and STEP can do, said once. -/

namespace Sys2Proof.Machine

open Config (esc sof eof)

/-- GpUpdate of a short sub-payload (R161). -/
theorem gpUpdate_short {sub : List Byte} (s : State) (h : sub.length < 6) : s.gpUpdate sub = s := by
  match sub with
  | [] | [_] | [_, _] | [_, _, _] | [_, _, _, _] | [_, _, _, _, _] => rfl
  | _ :: _ :: _ :: _ :: _ :: _ :: _ => simp at h; omega

/-- GpUpdate on the sub-payload of a payload, in terms of the payload (R160, R193). -/
theorem gpUpdate_eq (t : Byte) (sub : List Byte) (s : State) :
    s.gpUpdate sub =
      if 6 ≤ sub.length then (s.setGp (payloadPad (t :: sub))).emit (.state (payloadPad (t :: sub))) else s := by
  by_cases h : 6 ≤ sub.length
  · match sub with
    | [] | [_] | [_, _] | [_, _, _] | [_, _, _, _] | [_, _, _, _, _] => simp at h
    | _ :: _ :: _ :: _ :: _ :: _ :: _ => simp [State.gpUpdate, State.updatePad, payloadPad]
  · simp [gpUpdate_short s (by omega : sub.length < 6), h]

/-- What DELIVER leaves (R190): the events of the payload, `gp` as the payload says, nothing else. -/
theorem deliver_eq (raw : List Byte) (s : State) :
    s.deliver raw = { s with
      gp := padAfter s.params.tagState (unstuff raw) s.gp
      out := s.out ++ eventsOf s.params.tagState (unstuff raw)
      work := Work.empty } := by
  have hd : (runDecode raw s).work.output = unstuff raw := by simp [runDecode_eq]
  have hh : s.handOver raw = (s.setWork Work.empty).emit (.frame (unstuff raw)) := by
    simp only [State.handOver, hd]
    rw [runDecode_eq]; rfl
  rw [State.deliver, hh, hd]
  match unstuff raw with
  | [] => simp [State.dispatchTag, padAfter, eventsOf, isStateMessage, State.emit, State.setWork]
  | t :: sub =>
    by_cases ht : t = s.params.tagState
    · by_cases hl : 6 ≤ sub.length
      · simp [State.dispatchTag, ht, gpUpdate_eq t, hl, padAfter, eventsOf, isStateMessage, State.emit,
          State.setWork, State.setGp, Config.stateLen]
      · simp [State.dispatchTag, ht, gpUpdate_eq t, hl, padAfter, eventsOf, isStateMessage, State.emit,
          State.setWork, Config.stateLen]
    · simp [State.dispatchTag, ht, padAfter, eventsOf, isStateMessage, State.emit, State.setWork]

@[simp] theorem deliver_params (raw : List Byte) (s : State) : (s.deliver raw).params = s.params := by
  simp [deliver_eq]
@[simp] theorem deliver_acc (raw : List Byte) (s : State) : (s.deliver raw).acc = s.acc := by simp [deliver_eq]
@[simp] theorem deliver_mode (raw : List Byte) (s : State) : (s.deliver raw).mode = s.mode := by simp [deliver_eq]
@[simp] theorem deliver_gp (raw : List Byte) (s : State) :
    (s.deliver raw).gp = padAfter s.params.tagState (unstuff raw) s.gp := by simp [deliver_eq]
@[simp] theorem deliver_out (raw : List Byte) (s : State) :
    (s.deliver raw).out = s.out ++ eventsOf s.params.tagState (unstuff raw) := by simp [deliver_eq]
@[simp] theorem deliver_work (raw : List Byte) (s : State) : (s.deliver raw).work = Work.empty := by
  simp [deliver_eq]
@[simp] theorem deliver_tx (raw : List Byte) (s : State) : (s.deliver raw).tx = s.tx := by simp [deliver_eq]
@[simp] theorem deliver_inputs (raw : List Byte) (s : State) : (s.deliver raw).inputs = s.inputs := by
  simp [deliver_eq]

/-- The payloads handed over grow by one for each group of events. -/
@[simp] theorem frameSink_events (t : Byte) (p : List Byte) (out : List OutEvent) :
    frameSink (out ++ eventsOf t p) = frameSink out ++ [p] := by
  simp only [frameSink, List.filterMap_append, eventsOf]
  split <;> simp

/-- Everything one byte can do (R110, R120): the inversion of STEP. -/
theorem execStepByte_cases {s t : State} {b : Byte} (h : execStepByte b s = .next t) :
    (s.mode = .idle ∧ b ≠ sof ∧ t = s) ∨
    (s.mode = .idle ∧ b = sof ∧ s.canRestart = true ∧ t = (s.setAcc [sof]).setMode .frame) ∨
    (s.mode = .frame ∧ b = esc ∧ s.acc ≠ [] ∧ s.hasRoom = true ∧ t = (s.setAcc (s.acc ++ [esc])).setMode .esc) ∨
    (s.mode = .frame ∧ b = eof ∧ t = s.toIdle.deliver s.accBody) ∨
    (s.mode = .frame ∧ b = sof ∧ s.params.sofResync = true ∧ s.canRestart = true ∧ t = s.setAcc [sof]) ∨
    (s.mode = .frame ∧ b ≠ esc ∧ b ≠ eof ∧ (b = sof → s.params.sofResync = false) ∧ s.acc ≠ [] ∧
      s.hasRoom = true ∧ t = s.setAcc (s.acc ++ [b])) ∨
    (s.mode = .esc ∧ s.acc ≠ [] ∧ s.hasRoom = true ∧ t = (s.setAcc (s.acc ++ [b])).setMode .frame) := by
  cases hm : s.mode
  · by_cases hb : b = sof
    · simp only [execStepByte, hm, hb, if_true, execHuntSof, inContext_eq_next_iff, andThen_eq_next_iff,
        accRestart_eq_next_iff] at h
      obtain ⟨-, u, ⟨hr, rfl⟩, h⟩ := h
      simp at h
      simp [hb, hr, h]
    · simp [execStepByte, hm, hb, execHuntDrop] at h
      simp [hb, h]
  · by_cases he : b = esc
    · simp only [execStepByte, hm, he, if_true, execFrmEsc, inContext_eq_next_iff, andThen_eq_next_iff,
        accAppend_eq_next_iff] at h
      obtain ⟨-, u, ⟨ha, hr, rfl⟩, h⟩ := h
      simp at h
      simp [he, ha, hr, h]
    · by_cases hf : b = eof
      · simp [execStepByte, hm, hf, execFrmEof] at h
        simp [hf, h]
      · by_cases hb : b = sof
        · cases hs : s.params.sofResync
          · simp [execStepByte, hm, hb, hs, execFrmSof, accAppend_eq_next_iff] at h
            simp [hb, h]
          · simp [execStepByte, hm, hb, hs, execFrmSofResync, accRestart_eq_next_iff] at h
            simp [hb, h]
        · simp only [execStepByte, hm, he, hf, hb, if_false, execFrmData, inContext_eq_next_iff,
            accAppend_eq_next_iff] at h
          simp [he, hf, hb, h]
  · simp only [execStepByte, hm, execEscAny, inContext_eq_next_iff, andThen_eq_next_iff,
      accAppend_eq_next_iff] at h
    obtain ⟨-, u, ⟨ha, hr, rfl⟩, h⟩ := h
    simp at h
    simp [ha, hr, h]

/-- At rest a byte completes as long as the accumulator can take one more (R110, R128). -/
theorem execStepByte_completes {s : State} (h : s.AccAnchored) (b : Byte)
    (hd : ∀ d ∈ s.params.accDepth, s.acc.length < d) : ∃ t, execStepByte b s = .next t := by
  have hroom := hasRoom_iff.2 hd
  have hre : s.canRestart = true := canRestart_iff.2 fun d hd' => by have := hd d hd'; omega
  rcases accAnchored_cases h with ⟨hm, ha⟩ | ⟨hm, f, ha, _⟩ | ⟨hm, f, ha, _⟩
  · by_cases hb : b = sof <;> simp [execStepByte, hm, hb, execHuntSof, execHuntDrop, State.accRestart, hre]
  · have hne : s.acc ≠ [] := by simp [ha]
    by_cases h1 : b = esc
    · simp [execStepByte, hm, h1, execFrmEsc, accAppend_room _ hne hroom]
    by_cases h2 : b = eof
    · simp [execStepByte, hm, h2, execFrmEof]
    by_cases h3 : b = sof
    · cases h4 : s.params.sofResync <;> simp [execStepByte, hm, h3, h4, execFrmSof, execFrmSofResync, accAppend_room _ hne hroom, State.accRestart, hre]
    · simp [execStepByte, hm, h1, h2, h3, execFrmData, isReserved, accAppend_room _ hne hroom]
  · have hne : s.acc ≠ [] := by simp [ha]
    simp [execStepByte, hm, execEscAny, accAppend_room _ hne hroom]

/-- Every byte keeps the memory in its form, and the mode what a rescan gives (R22, R24). -/
theorem execStepByte_anchored {s t : State} (h : s.AccAnchored) {b : Byte} (hs : execStepByte b s = .next t) : t.AccAnchored := by
  rcases execStepByte_cases hs with ⟨hm, hb, rfl⟩ | ⟨hm, rfl, hr, rfl⟩ | ⟨hm, rfl, ha, hr, rfl⟩ | ⟨hm, rfl, rfl⟩ | ⟨hm, rfl, hs, hr, rfl⟩ | ⟨hm, h1, h2, h3, ha, hr, rfl⟩ | ⟨hm, ha, hr, rfl⟩
  · exact h
  · exact accAnchored_open (f := []) rfl rfl rfl
  · rcases accAnchored_cases h with ⟨hm', _⟩ | ⟨_, f, ha', hl, hd⟩ | ⟨hm', _⟩
    · simp [hm] at hm'
    · exact accAnchored_open (f := f ++ [esc]) (by simp [ha']) (by simp [noLiteral_append_byte, hl]) (by simp [endsDangling_append_byte, hd])
    · simp [hm] at hm'
  · exact accAnchored_idle (by simp [deliver_eq]) (by simp [deliver_eq])
  · exact accAnchored_open (f := []) rfl rfl (by simp [hm])
  · rcases accAnchored_cases h with ⟨hm', _⟩ | ⟨_, f, ha', hl, hd⟩ | ⟨hm', _⟩
    · simp [hm] at hm'
    · exact accAnchored_open (f := f ++ [b]) (by simp [ha']) (by simp [noLiteral_append_byte, hl, h2]) (by simp [endsDangling_append_byte, hd, hm, h1])
    · simp [hm] at hm'
  · rcases accAnchored_cases h with ⟨hm', _⟩ | ⟨hm', _⟩ | ⟨_, f, ha', hl, hd⟩
    · simp [hm] at hm'
    · simp [hm] at hm'
    · exact accAnchored_open (f := f ++ [b]) (by simp [ha']) (by simp [noLiteral_append_byte, hl, hd]) (by simp [endsDangling_append_byte, hd])

/-- A byte grows the accumulator by one at most, and never writes the parameters. -/
theorem execStepByte_length {s t : State} {b : Byte} (hs : execStepByte b s = .next t) :
    t.params = s.params ∧ t.acc.length ≤ s.acc.length + 1 := by
  rcases execStepByte_cases hs with ⟨hm, hb, rfl⟩ | ⟨hm, rfl, hr, rfl⟩ | ⟨hm, rfl, ha, hr, rfl⟩ | ⟨hm, rfl, rfl⟩ | ⟨hm, rfl, hs, hr, rfl⟩ | ⟨hm, h1, h2, h3, ha, hr, rfl⟩ | ⟨hm, ha, hr, rfl⟩ <;> simp [deliver_eq]

end Sys2Proof.Machine
end

