-- ==== Sys2Proof/Laws/Chunk.lean ====
section
/-! SUPPORT. What SUBMIT, the batch procedure and the delivery of several frames can do: sequencing, independence from
the inputs still to come, and one pass of the batch loop. -/

namespace Sys2Proof.Machine

open Config (esc sof eof)

/-- SUBMIT of a concatenation is SUBMIT of its parts, one after the other (R119). -/
theorem submitBytes_append (c d : List Byte) (s : State) :
    submitBytes (c ++ d) s = andThen (submitBytes c s) (submitBytes d) := by
  induction c generalizing s with
  | nil => rfl
  | cons b c ih =>
    simp only [List.cons_append, submitBytes]
    rw [andThen_assoc]
    exact congrArg _ (funext ih)

theorem accAppend_setInputs (xs : List Input) (b : Byte) (s : State) :
    (s.setInputs xs).accAppend b = andThen (s.accAppend b) fun t => .next (t.setInputs xs) := by
  show (if s.acc = [] then _ else if s.hasRoom = true then _ else _) =
    andThen (if s.acc = [] then _ else if s.hasRoom = true then _ else _) _
  split
  · rfl
  · split <;> rfl

theorem accRestart_setInputs (xs : List Input) (s : State) :
    (s.setInputs xs).accRestart = andThen s.accRestart fun t => .next (t.setInputs xs) := by
  show (if s.canRestart = true then _ else _) = andThen (if s.canRestart = true then _ else _) _
  split <;> rfl

theorem inContext_andThen (c : Prop) [Decidable c] (r : Result) (f : State → Result) :
    andThen (inContext c r) f = inContext c (andThen r f) := by
  by_cases h : c <;> simp [h]

/-- A byte's operation neither reads nor writes the inputs still to come (R57). -/
theorem execStepByte_setInputs (xs : List Input) (b : Byte) (s : State) :
    execStepByte b (s.setInputs xs) = andThen (execStepByte b s) fun t => .next (t.setInputs xs) := by
  cases hm : s.mode
  · by_cases h : b = sof
    · simp only [execStepByte, State.setInputs_mode, hm, h, if_true, execHuntSof, accRestart_setInputs,
        inContext_andThen, andThen_assoc]; rfl
    · simp [execStepByte, hm, h, execHuntDrop]
  · by_cases h1 : b = esc
    · simp only [execStepByte, State.setInputs_mode, hm, h1, if_true, execFrmEsc, accAppend_setInputs,
        inContext_andThen, andThen_assoc]; rfl
    by_cases h2 : b = eof
    · simp [execStepByte, hm, h2, execFrmEof, deliver_eq, State.accBody, State.setInputs]
    by_cases h3 : b = sof
    · cases h4 : s.params.sofResync <;>
        simp [execStepByte, hm, h3, h4, execFrmSof, execFrmSofResync, accAppend_setInputs, accRestart_setInputs]
    · simp [execStepByte, hm, h1, h2, h3, execFrmData, isReserved, accAppend_setInputs]
  · simp only [execStepByte, State.setInputs_mode, hm, execEscAny, accAppend_setInputs, inContext_andThen,
      andThen_assoc]; rfl

theorem fromSof_length_le (a : List Byte) : (fromSof a).length ≤ a.length := by
  induction a with
  | nil => simp [fromSof]
  | cons b r ih =>
    by_cases h : b = sof
    · simp [fromSof, h]
    · simp [fromSof, h]; omega

/-- The trim of R121 leaves nothing, or bytes that begin at a start marker. -/
theorem fromSof_cases (a : List Byte) : fromSof a = [] ∨ ∃ r, fromSof a = sof :: r := by
  induction a with
  | nil => simp [fromSof]
  | cons b r ih => by_cases h : b = sof <;> simp [fromSof, h, ih]

/-- More fuel than bytes changes nothing. -/
theorem batchLoop_fuel (n m : Nat) (a : List Byte) (hn : a.length < n) (hm : a.length < m) :
    batchLoop n a = batchLoop m a := by
  induction n generalizing m a with
  | zero => simp at hn
  | succ n ih =>
    cases m with
    | zero => simp at hm
    | succ m =>
      simp only [batchLoop]
      have hl := fromSof_length_le a
      match hf : fromSof a with
      | [] => rfl
      | b :: r =>
        rw [hf] at hl
        simp at hl
        match hs : scan (b :: r) with
        | .incomplete _ => simp only [hs]
        | .endAt i =>
          have hd : (r.drop i).length ≤ r.length := by simp
          simp only [hs]
          rw [ih m (r.drop i) (by omega) (by omega)]

/-- One pass of the batch procedure: trim, scan, keep or take out and repeat (R121). -/
theorem batchSubmit_pass (a : List Byte) :
    batchSubmit [] a =
      match fromSof a with
      | [] => ([], [])
      | b :: rest =>
        match scan (b :: rest) with
        | .incomplete _ => (b :: rest, [])
        | .endAt i =>
          ((batchSubmit [] (rest.drop i)).1, rest.take (i - 1) :: (batchSubmit [] (rest.drop i)).2) := by
  show batchLoop (a.length + 1) a = _
  simp only [batchLoop]
  have hl := fromSof_length_le a
  match hf : fromSof a with
  | [] => rfl
  | b :: r =>
    rw [hf] at hl
    simp at hl
    match hs : scan (b :: r) with
    | .incomplete _ => simp only [hs]
    | .endAt i =>
      have hd : (r.drop i).length ≤ r.length := by simp
      simp only [hs]
      rw [batchLoop_fuel a.length ((r.drop i).length + 1) (r.drop i) (by omega) (by omega)]
      rfl

/-- The batch procedure reads the accumulator and the chunk only joined. -/
theorem batchSubmit_join (a c : List Byte) : batchSubmit a c = batchSubmit [] (a ++ c) := rfl

/-- The batch procedure leaves the memory in its form (R22). -/
theorem batchSubmit_wf (a : List Byte) : Memory.wf (batchSubmit [] a).1 = true := by
  generalize hn : a.length = n
  induction n using Nat.strong_induction_on generalizing a with
  | _ n ih =>
    rw [batchSubmit_pass]
    have hl := fromSof_length_le a
    rcases fromSof_cases a with hf | ⟨r, hf⟩
    · simp [hf]
    · rw [hf] at hl ⊢
      simp at hl
      match hs : scan (sof :: r) with
      | .incomplete i => simp only [hs, Memory.wf, modeOf]; simp; split <;> rfl
      | .endAt i =>
        have hd : (r.drop i).length ≤ r.length := by simp
        simpa [hs] using ih _ (by omega) (r.drop i) rfl

/-- Delivering several frames writes `gp`, `out` and the working values, nothing else, and hands the payloads over in
order (R125). -/
theorem deliverAll_frame (fs : List (List Byte)) (s : State) :
    (s.deliverAll fs).acc = s.acc ∧ (s.deliverAll fs).mode = s.mode ∧ (s.deliverAll fs).params = s.params ∧
    (s.deliverAll fs).tx = s.tx ∧ (s.deliverAll fs).inputs = s.inputs ∧
    frameSink (s.deliverAll fs).out = frameSink s.out ++ fs.map unstuff := by
  induction fs generalizing s with
  | nil => simp [State.deliverAll]
  | cons f fs ih =>
    obtain ⟨h1, h2, h3, h4, h5, h6⟩ := ih (s.deliver f)
    simp only [State.deliverAll]
    simp [h1, h2, h3, h4, h5, h6]

/-- Everything the delivery of several frames leaves, in terms of their payloads. -/
theorem deliverAll_eq (fs : List (List Byte)) (s : State) :
    s.deliverAll fs = { s with
      gp := fs.foldl (fun g f => padAfter s.params.tagState (unstuff f) g) s.gp
      out := s.out ++ fs.flatMap fun f => eventsOf s.params.tagState (unstuff f)
      work := if fs = [] then s.work else Work.empty } := by
  induction fs generalizing s with
  | nil => simp [State.deliverAll]
  | cons f fs ih => simp [State.deliverAll, ih]

theorem hasRoomFor_iff {s : State} {c : List Byte} :
    s.hasRoomFor c = true ↔ ∀ d ∈ s.params.accDepth, s.acc.length + c.length ≤ d := by
  cases h : s.params.accDepth <;> simp [State.hasRoomFor, h]

end Sys2Proof.Machine
end

