-- ==== Sys2Proof/Laws/Port.lean ====
section
/-! SUPPORT. What the output pins show (R40): the cycles of one DELIVER, and `gp_*` at the pulse of `gp_changed`. -/

namespace Sys2Proof.Machine

/-- Events in a row are on the pins one after another, `gp_*` carried along. -/
theorem portCycles_append (es fs : List OutEvent) (g : Gamepad) :
    portCycles g (es ++ fs) = portCycles g es ++ portCycles (es.foldl OutEvent.shown g) fs := by
  induction es generalizing g with
  | nil => rfl
  | cons e es ih => simp [portCycles, ih]

/-- After the events of a payload `gp_*` show what the payload leaves in `gp`. -/
theorem shown_eventsOf (t : Byte) (p : List Byte) (g : Gamepad) :
    (eventsOf t p).foldl OutEvent.shown g = padAfter t p g := by
  unfold eventsOf padAfter
  split <;> rfl

/-- DELIVER on the pins: the payload byte by byte with `gp_*` still old, `frm_done`, for a state message the pulse of
`gp_changed` with `gp_*` already at the new values, then the pins at rest with those values. -/
theorem deliver_outCycles (raw : List Byte) (s : State) :
    s.outCycles (s.deliver raw) =
      OutEvent.cycles s.gp (.frame (unstuff raw)) ++
        (if isStateMessage s.params.tagState (unstuff raw) then [⟨none, false, true, (s.deliver raw).gp⟩] else []) ++
        [(s.deliver raw).restPins] := by
  simp only [State.outCycles, deliver_out, List.drop_left, eventsOf, deliver_gp, padAfter]
  split <;> simp [portCycles, OutEvent.cycles]

end Sys2Proof.Machine
end

