-- ==== Sys2Proof/Laws/Transmit.lean ====
section
/-! SUPPORT. What the transmit-side reference functions do, one byte at a time (R148, R149). -/

namespace Sys2Proof.Machine

open Config (esc sof eof)

theorem isReserved_iff (b : Byte) : isReserved b = true ↔ b = sof ∨ b = esc ∨ b = eof := by
  simp [isReserved, or_assoc]

/-- What Escape puts out for one byte. -/
theorem escape_cons (b : Byte) (p : List Byte) :
    escape (b :: p) = (if isReserved b then [esc, b ^^^ Config.xorMask] else [b]) ++ escape p := by
  cases h : isReserved b <;> simp [escape, h]

/-- The row a payload byte selects appends that byte's part of Escape. -/
theorem sendByte_eq (b : Byte) (s : State) :
    sendByte b s = s.sendBytes (if isReserved b then [esc, b ^^^ Config.xorMask] else [b]) := by
  cases h : isReserved b
  · have := (isReserved_iff b).not.1 (by simp [h])
    push Not at this
    simp [sendByte, this]
  · rcases (isReserved_iff b).1 h with rfl | rfl | rfl <;> rfl

/-- The rows of a payload, one after another, append its Escape. -/
theorem sendByte_fold (p : List Byte) (s : State) :
    p.foldl (fun t b => sendByte b t) s = s.setTx (s.tx ++ escape p) := by
  induction p generalizing s with
  | nil => simp [escape, State.setTx]
  | cons b p ih => rw [List.foldl_cons, ih, escape_cons, sendByte_eq]; simp [State.sendBytes, State.setTx]

end Sys2Proof.Machine
end

