-- ==== Sys2Proof/Tests/Slice0.lean ====
section
/-! SUPPORT. Tests: the well-formedness checks, a decoded word for every row, the vectors of
spec/95_test_vectors.md (each theorem's comment names its vector), and a witness for the hypotheses of each
obligation. Expected results come from the spec's tables, not from the model. -/

namespace Sys2Proof.Tests

open Sys2Proof.Machine

/-! ### Helpers -/

/-- The vectors' parameters: the defaults, with TAG_STATE = 0x01 as an illustration (spec/95_test_vectors.md). -/
def par : Params :=
  ⟨0x01#8, 0x02#8, 0x03#8, 0x04#8, 0x05#8, 0x06#8, 0x07#8, 0x08#8, none, 0x80#8, false, true⟩

/-- The same, SOF_RESYNC = 1: the vectors whose id ends in r. -/
def parR : Params := { par with sofResync := true }

/-- A fresh instance. -/
def fresh (p : Params) : State := ⟨p, [], .idle, Gamepad.neutral p.axisNeutral, [], Work.empty, [], []⟩

/-- An instance with an open frame. -/
def openFrame (p : Params) (m : Mode) (body : List Byte) : State :=
  { fresh p with acc := 0x7E#8 :: body, mode := m }

/-- A finite accumulator. -/
def depth (d : Nat) (p : Params) : Params := { p with accDepth := some d }

/-- The payloads delivered, the mode and the accumulator after an answer. -/
def seen (r : Result) : Option (List (List Byte) × Mode × List Byte) :=
  (nextOf r).map fun t => (frameSink t.out, t.mode, t.acc)

/-- The register file and the number of `State` events after an answer. -/
def pad (r : Result) : Option (Gamepad × Nat) := (nextOf r).map fun t => (t.gp, (stateSink t.out).length)

/-- `gp` after vector G1: the source's own example. -/
def g1 : Gamepad :=
  { lx := 0x0A#8, ly := 0x14#8, rx := 0x1E#8, ry := 0x28#8, raw4 := 0x24#8, raw5 := 0x05#8, dpad := .DOWN
    X := false, A := true, B := false, Y := false, LB := true, RB := false, LT := true, RT := false
    BACK := false, START := false, L3 := false, R3 := false }

/-! ### WellFormed: a term each check refuses, and one it admits beside it -/

theorem test_wf_hunt_drop : (Instr.huntDrop 0x7E#8).wf par = false ∧ (Instr.huntDrop 0x7D#8).wf par = true := by
  decide
theorem test_wf_frm_sof : Instr.frmSof.wf parR = false ∧ Instr.frmSof.wf par = true := by decide
theorem test_wf_frm_sof_resync : Instr.frmSofResync.wf par = false ∧ Instr.frmSofResync.wf parR = true := by
  decide
theorem test_wf_frm_data :
    (Instr.frmData 0x7D#8).wf par = false ∧ (Instr.frmData 0x7E#8).wf par = false ∧
    (Instr.frmData 0x7F#8).wf par = false ∧ (Instr.frmData 0x5F#8).wf par = true := by decide
theorem test_wf_dec_lit : (Instr.decLit 0x7D#8).wf par = false ∧ (Instr.decLit 0x7E#8).wf par = true := by decide
theorem test_wf_tag_other :
    (Instr.tagOther [0x01#8]).wf par = false ∧ (Instr.tagOther []).wf par = true ∧
    (Instr.tagOther [0x02#8]).wf par = true := by decide
theorem test_wf_gp_nop :
    (Instr.gpNop [0#8, 0#8, 0#8, 0#8, 0#8, 0#8]).wf par = false ∧
    (Instr.gpNop [0#8, 0#8, 0#8, 0#8, 0#8]).wf par = true := by decide
theorem test_wf_tx_lit :
    (Instr.txLit 0x7D#8).wf par = false ∧ (Instr.txLit 0x7E#8).wf par = false ∧
    (Instr.txLit 0x7F#8).wf par = false ∧ (Instr.txLit 0x5E#8).wf par = true := by decide

/-! ### Decode: one word for every row, bits from the `encoding` strings of spec/opcode_table.json -/

theorem test_decode_byte_rows :
    decode par (.mode .idle) [0b01111110#8] = .ok (.huntSof, []) ∧
    decode par (.mode .idle) [0b01111101#8] = .ok (.huntDrop 0x7D#8, []) ∧
    decode par (.mode .frame) [0b01111101#8] = .ok (.frmEsc, []) ∧
    decode par (.mode .frame) [0b01111111#8] = .ok (.frmEof, []) ∧
    decode par (.mode .frame) [0b01111110#8] = .ok (.frmSof, []) ∧
    decode parR (.mode .frame) [0b01111110#8] = .ok (.frmSofResync, []) ∧
    decode par (.mode .frame) [0b10000000#8] = .ok (.frmData 0x80#8, []) ∧
    decode parR (.mode .esc) [0b01111110#8] = .ok (.escAny 0x7E#8, []) := ⟨rfl, rfl, rfl, rfl, rfl, rfl, rfl, rfl⟩

theorem test_decode_unit_rows :
    decode par .unit [0b01111101#8, 0b01111101#8, 0x41#8] = .ok (.decPair 0x7D#8, [0x41#8]) ∧
    decode par .unit [0b01111101#8] = .ok (.decTrunc, []) ∧
    decode par .unit [0b01111111#8, 0x41#8] = .ok (.decLit 0x7F#8, [0x41#8]) ∧
    decode par .unit [] = .error .noByte := ⟨rfl, rfl, rfl, rfl⟩

theorem test_decode_tag_rows :
    decode par .tag [0x01#8, 0x0A#8] = .ok (.tagState [0x0A#8], []) ∧
    decode par .tag [0x02#8, 0x01#8] = .ok (.tagOther [0x02#8, 0x01#8], []) ∧
    decode par .tag [] = .ok (.tagOther [], []) := ⟨rfl, rfl, rfl⟩

theorem test_decode_pad_rows :
    decode par .pad [1#8, 2#8, 3#8, 4#8, 0b00010111#8, 0b00010000#8, 0x99#8] =
      .ok (.gpUpdate 1#8 2#8 3#8 4#8 0x17#8 0x10#8 [0x99#8], []) ∧
    decode par .pad [1#8, 2#8, 3#8, 4#8, 5#8] = .ok (.gpNop [1#8, 2#8, 3#8, 4#8, 5#8], []) := ⟨rfl, rfl⟩

theorem test_decode_nibble_rows :
    [0b0000#4, 0b0001#4, 0b0010#4, 0b0011#4, 0b0100#4, 0b0101#4, 0b0110#4, 0b0111#4, 0b1000#4, 0b1001#4, 0b1010#4,
      0b1011#4, 0b1100#4, 0b1101#4, 0b1110#4, 0b1111#4].map decodeNibble =
    [.dirUp, .dirUpRight, .dirRight, .dirDownRight, .dirDown, .dirDownLeft, .dirLeft, .dirUpLeft, .dirNone,
      .dirUnrecognized9, .dirUnrecognizedAB 0#1, .dirUnrecognizedAB 1#1, .dirUnrecognizedCF 0#2,
      .dirUnrecognizedCF 1#2, .dirUnrecognizedCF 2#2, .dirUnrecognizedCF 3#2] := by decide

theorem test_decode_nibble_too_wide : decode par .nibble [0b00010000#8] = .error (.notNibble 0x10#8) := rfl

theorem test_decode_button_rows :
    decode par (.button .X) [0x10#8] = .ok (.btnX 0x10#8, []) ∧
    decode par (.button .A) [0x20#8] = .ok (.btnA 0x20#8, []) ∧
    decode par (.button .B) [0x40#8] = .ok (.btnB 0x40#8, []) ∧
    decode par (.button .Y) [0x80#8] = .ok (.btnY 0x80#8, []) ∧
    decode par (.button .LB) [0x01#8] = .ok (.btnLB 0x01#8, []) ∧
    decode par (.button .RB) [0x02#8] = .ok (.btnRB 0x02#8, []) ∧
    decode par (.button .LT) [0x04#8] = .ok (.btnLT 0x04#8, []) ∧
    decode par (.button .RT) [0x08#8] = .ok (.btnRT 0x08#8, []) ∧
    decode par (.button .BACK) [0x10#8] = .ok (.btnBACK 0x10#8, []) ∧
    decode par (.button .START) [0x20#8] = .ok (.btnSTART 0x20#8, []) ∧
    decode par (.button .L3) [0x40#8] = .ok (.btnL3 0x40#8, []) ∧
    decode par (.button .R3) [0x80#8] = .ok (.btnR3 0x80#8, []) :=
  ⟨rfl, rfl, rfl, rfl, rfl, rfl, rfl, rfl, rfl, rfl, rfl, rfl⟩

theorem test_decode_tx_rows :
    decode par .tx [0b01111110#8] = .ok (.txEsc7E, []) ∧ decode par .tx [0b01111101#8] = .ok (.txEsc7D, []) ∧
    decode par .tx [0b01111111#8] = .ok (.txEsc7F, []) ∧ decode par .tx [0b01011111#8] = .ok (.txLit 0x5F#8, []) :=
  ⟨rfl, rfl, rfl, rfl⟩

theorem test_decode_event_rows :
    decode par (.event .step) [0x7E#8] = .ok (.stepByte 0x7E#8, []) ∧
    decode par (.event .submit) [0x7E#8, 0x7F#8] = .ok (.submit [0x7E#8, 0x7F#8], []) ∧
    decode par (.event .batchSubmit) [] = .ok (.batchSubmit [], []) ∧
    decode par (.event .decode) [0x7D#8] = .ok (.decodeFrame [0x7D#8], []) ∧
    decode par (.event .gpUpdate) [] = .ok (.gpUpdateCall [], []) ∧
    decode par (.event .deliver) [] = .ok (.deliver [], []) ∧
    decode par (.event .reset) [] = .ok (.reset, []) ∧
    decode par (.event .openSession) [] = .ok (.openSession, []) ∧
    decode par (.event .close) [] = .ok (.close, []) ∧
    decode par (.event .frameWrap) [0x7F#8] = .ok (.frameWrap [0x7F#8], []) :=
  ⟨rfl, rfl, rfl, rfl, rfl, rfl, rfl, rfl, rfl, rfl⟩

/-- The words of format G and U2 as the table numbers them: the first byte in the highest bits. -/
theorem test_table_words :
    decodeTableWord 48 0x0A141E282405 = some (.gpUpdate 0x0A#8 0x14#8 0x1E#8 0x28#8 0x24#8 0x05#8 []) ∧
    decodeTableWord 16 0x7D5F = some (.decPair 0x5F#8) ∧ decodeTableWord 16 0x4142 = none ∧
    decodeTableWord 8 0x7E = some .huntSof ∧ decodeTableWord 8 0x7F = some (.huntDrop 0x7F#8) ∧
    decodeTableWord 4 0xB = some (.dirUnrecognizedAB 1#1) ∧ decodeTableWord 0 0 = none := by decide

/-- A table word placed after reset is what the next step runs. -/
theorem test_placed_words :
    seen (step (State.reset.withFetchWord 8 0x7E)) = some ([], .frame, [0x7E#8]) ∧
    pad (step (State.reset.withFetchWord 48 0x0A141E282405)) = some (g1, 1) := by decide

/-! ### Frame Assembler: the vectors of spec/95_test_vectors.md sections 2 and 2.1 -/

/-- V1, V13: noise, and an escape marker that protects nothing. -/
theorem test_v1_v13 :
    seen (exec (.submit [0x01#8, 0x7D#8, 0x7F#8, 0x55#8]) (fresh par)) = some ([], .idle, []) ∧
    seen (exec (.submit [0x00#8, 0x7F#8, 0x7D#8, 0x7E#8, 0x41#8, 0x7F#8]) (fresh par)) =
      some ([[0x41#8]], .idle, []) := by decide

/-- V4: two frames in order. V5: the escaped end marker. -/
theorem test_v4_v5 :
    seen (exec (.submit [0x7E#8, 0x41#8, 0x7F#8, 0x7E#8, 0x42#8, 0x43#8, 0x7F#8]) (fresh par)) =
      some ([[0x41#8], [0x42#8, 0x43#8]], .idle, []) ∧
    seen (exec (.submit [0x7E#8, 0x10#8, 0x7D#8, 0x5F#8, 0x11#8, 0x7F#8]) (fresh par)) =
      some ([[0x10#8, 0x7F#8, 0x11#8]], .idle, []) := by decide

/-- V6, V17: the byte after an escape marker is never a marker; pairing runs left to right. -/
theorem test_v6_v17 :
    seen (exec (.submit [0x7E#8, 0x7D#8, 0x7F#8, 0x7F#8]) (fresh par)) = some ([[0x5F#8]], .idle, []) ∧
    seen (exec (.submit [0x7E#8, 0x7D#8, 0x7D#8, 0x7D#8, 0x5E#8, 0x7F#8]) (fresh par)) =
      some ([[0x5D#8, 0x7E#8]], .idle, []) := by decide

/-- V8 and V8r: a start marker after an escape marker, under both settings. -/
theorem test_v8_v8r :
    seen (exec (.submit [0x7E#8, 0x7D#8, 0x7E#8, 0x7F#8]) (fresh par)) = some ([[0x5E#8]], .idle, []) ∧
    seen (exec (.submit [0x7E#8, 0x7D#8, 0x7E#8, 0x7F#8]) (fresh parR)) = some ([[0x5E#8]], .idle, []) := by decide

/-- V9 and V9r: a start marker inside a frame. -/
theorem test_v9_v9r :
    seen (exec (.submit [0x7E#8, 0x41#8, 0x7E#8, 0x42#8, 0x7F#8]) (fresh par)) =
      some ([[0x41#8, 0x7E#8, 0x42#8]], .idle, []) ∧
    seen (exec (.submit [0x7E#8, 0x41#8, 0x7E#8, 0x42#8, 0x7F#8]) (fresh parR)) =
      some ([[0x42#8]], .idle, []) := by decide

/-- V12: the pending escape carried over. V16: one event for the empty frame, none for stray end markers. -/
theorem test_v12_v16 :
    seen (exec (.submit [0x7E#8, 0x41#8, 0x7D#8]) (fresh par)) =
      some ([], .esc, [0x7E#8, 0x41#8, 0x7D#8]) ∧
    seen (exec (.submit [0x7F#8, 0x7F#8, 0x7E#8, 0x7F#8]) (fresh par)) = some ([[]], .idle, []) := by decide

/-- ACC_DEPTH = 4 (the paragraph after S6): the fourth byte fits, a fifth data byte is refused, an end marker is
not. -/
theorem test_finite_depth :
    seen (exec (.submit [0x7E#8, 0x41#8, 0x42#8, 0x43#8]) (fresh (depth 4 par))) =
      some ([], .frame, [0x7E#8, 0x41#8, 0x42#8, 0x43#8]) ∧
    refusalOf (exec (.submit [0x7E#8, 0x41#8, 0x42#8, 0x43#8, 0x44#8]) (fresh (depth 4 par))) = some .accOverflow ∧
    seen (exec (.submit [0x7E#8, 0x41#8, 0x42#8, 0x43#8, 0x7F#8]) (fresh (depth 4 par))) =
      some ([[0x41#8, 0x42#8, 0x43#8]], .idle, []) := by decide

/-- S6: BatchSubmit on the chunks of S2. -/
theorem test_s6 :
    batchSubmit [] [0x7E#8, 0x41#8, 0x7F#8, 0x7E#8, 0x42#8] = ([0x7E#8, 0x42#8], [[0x41#8]]) ∧
    batchSubmit [0x7E#8, 0x42#8] [0x43#8, 0x7F#8, 0x7E#8] = ([0x7E#8], [[0x42#8, 0x43#8]]) ∧
    batchSubmit [0x7E#8] [0x7F#8] = ([], [[]]) := by decide

/-- S2's first chunk through BATCHSUBMIT as an operation. -/
theorem test_batch_submit :
    seen (exec (.batchSubmit [0x7E#8, 0x41#8, 0x7F#8, 0x7E#8, 0x42#8, 0x7D#8]) (fresh par)) =
      some ([[0x41#8]], .esc, [0x7E#8, 0x42#8, 0x7D#8]) := by decide

/-! ### Payload Decoder and Escape: sections 3 and 3.1 -/

/-- D2, D6, D8, D9, D14, D17. -/
theorem test_decode_vectors :
    unstuff [0x7D#8] = [] ∧ unstuff [0x7D#8, 0x7D#8, 0x7D#8] = [0x5D#8] ∧ unstuff [0x7D#8, 0x00#8] = [0x20#8] ∧
    unstuff [0x7D#8, 0xFF#8] = [0xDF#8] ∧ unstuff [0x7D#8, 0x7D#8, 0x5E#8] = [0x5D#8, 0x5E#8] ∧
    unstuff [0x7D#8, 0x41#8, 0x7D#8] = [0x61#8] := by decide

/-- D12 through DECODE as an operation: the answer stands in the working values, the cursor at the end. -/
theorem test_decode_operation :
    (nextOf (exec (.decodeFrame [0x10#8, 0x7D#8, 0x5F#8, 0x11#8]) (fresh par))).map (·.work) =
      some ⟨[0x10#8, 0x7F#8, 0x11#8], 4⟩ := by decide

/-- E8 through FRAMEWRAP. -/
theorem test_e8 :
    (nextOf (exec (.frameWrap [0x01#8, 0x7E#8, 0x7D#8, 0x7F#8, 0x02#8]) (fresh par))).map (·.tx) =
      some [0x7E#8, 0x01#8, 0x7D#8, 0x5E#8, 0x7D#8, 0x5D#8, 0x7D#8, 0x5F#8, 0x02#8, 0x7F#8] := by decide

/-! ### Gamepad State Decoder: section 4 -/

/-- G1: the source's example. -/
theorem test_g1 :
    pad (exec (.gpUpdateCall [0x0A#8, 0x14#8, 0x1E#8, 0x28#8, 0x24#8, 0x05#8]) (fresh par)) = some (g1, 1) := by
  decide

/-- G4: the first unrecognized nibble; X and R3. -/
theorem test_g4 :
    pad (exec (.gpUpdateCall [0x80#8, 0x80#8, 0x80#8, 0x80#8, 0x19#8, 0x80#8]) (fresh par)) =
      some ({ Gamepad.neutral 0x80#8 with
        raw4 := 0x19#8, raw5 := 0x80#8, dpad := .UNRECOGNIZED, X := true, R3 := true }, 1) := by decide

/-- G7: seven bytes; G8 and G9: five and four bytes change nothing and emit nothing. -/
theorem test_g7_g8_g9 :
    pad (exec (.gpUpdateCall [1#8, 2#8, 3#8, 4#8, 0x17#8, 0x10#8, 0x99#8]) (fresh par)) =
      some ({ Gamepad.neutral 0x80#8 with
        lx := 1#8, ly := 2#8, rx := 3#8, ry := 4#8
        raw4 := 0x17#8, raw5 := 0x10#8, dpad := .UP_LEFT, X := true, BACK := true }, 1) ∧
    pad (exec (.gpUpdateCall [1#8, 2#8, 3#8, 4#8, 5#8]) { fresh par with gp := g1 }) = some (g1, 0) ∧
    pad (exec (.gpUpdateCall [1#8, 2#8, 3#8, 4#8]) { fresh par with gp := g1 }) = some (g1, 0) := by decide

/-- G14: byte 4 one button at a time, then byte 5. -/
theorem test_g14 :
    ([0x18#8, 0x28#8, 0x48#8, 0x88#8].map fun b => (flagSet b 0x10#8, flagSet b 0x20#8, flagSet b 0x40#8,
      flagSet b 0x80#8)) =
      [(true, false, false, false), (false, true, false, false), (false, false, true, false),
        (false, false, false, true)] ∧
    ([Button.LB, .RB, .LT, .RT, .BACK, .START, .L3, .R3].map fun k =>
      (Gamepad.button (unpack 0#8 0#8 0#8 0#8 0x08#8 (buttonMask k)) k)) = List.replicate 8 true := by decide

/-! ### Delivery and control: sections 5 and 6 -/

/-- T1: the shortest state message. T7: the tag test is made on the decoded payload. -/
theorem test_t1_t7 :
    pad (exec (.submit [0x7E#8, 0x01#8, 0x0A#8, 0x14#8, 0x1E#8, 0x28#8, 0x24#8, 0x05#8, 0x7F#8]) (fresh par)) =
      some (g1, 1) ∧
    pad (exec (.submit [0x7E#8, 0x7D#8, 0x21#8, 0x0A#8, 0x14#8, 0x1E#8, 0x28#8, 0x24#8, 0x05#8, 0x7F#8])
      (fresh par)) = some (g1, 1) := by decide

/-- T2, T5, T6: one byte short; another tag; the tag value elsewhere than at byte 0. -/
theorem test_t2_t5_t6 :
    pad (exec (.deliver [0x01#8, 0x0A#8, 0x14#8, 0x1E#8, 0x28#8, 0x24#8]) (fresh par)) =
      some (Gamepad.neutral 0x80#8, 0) ∧
    pad (exec (.deliver [0x02#8, 0x0A#8, 0x14#8, 0x1E#8, 0x28#8, 0x24#8, 0x05#8]) (fresh par)) =
      some (Gamepad.neutral 0x80#8, 0) ∧
    pad (exec (.deliver [0x0A#8, 0x01#8, 0x14#8, 0x1E#8, 0x28#8, 0x24#8, 0x05#8, 0x00#8]) (fresh par)) =
      some (Gamepad.neutral 0x80#8, 0) := by decide

/-- T1's event order: `Frame`, then `State`. -/
theorem test_event_order :
    (nextOf (exec (.deliver [0x01#8, 0x0A#8, 0x14#8, 0x1E#8, 0x28#8, 0x24#8, 0x05#8]) (fresh par))).map (·.out) =
      some [.frame [0x01#8, 0x0A#8, 0x14#8, 0x1E#8, 0x28#8, 0x24#8, 0x05#8], .state g1] := by decide

/-- T8, T9, T10: `gp` survives CLOSE; OPEN resets it exactly when GP_RESET_ON_OPEN = 1. -/
theorem test_t8_t9_t10 :
    pad (exec .close { openFrame par .esc [0x7D#8] with gp := g1 }) = some (g1, 0) ∧
    pad (exec .openSession { fresh par with gp := g1 }) = some (Gamepad.neutral 0x80#8, 0) ∧
    pad (exec .openSession { fresh { par with gpResetOnOpen := false } with gp := g1 }) = some (g1, 0) := by decide

/-- T11 and S5: RESET and CLOSE in the middle of a frame are silent. -/
theorem test_t11_s5 :
    seen (exec .reset (openFrame par .frame [0x01#8, 0x0A#8, 0x14#8])) = some ([], .idle, []) ∧
    seen (exec .close (openFrame par .esc [0x41#8, 0x7D#8])) = some ([], .idle, []) ∧
    pad (exec .reset { openFrame par .esc [0x01#8, 0x7D#8] with gp := g1 }) =
      some (Gamepad.neutral 0x80#8, 0) := by decide

/-- X7 and X7r: recovery after a corrupt frame. -/
theorem test_x7_x7r :
    seen (exec (.submit [0x7F#8, 0x7E#8, 0x02#8, 0xAA#8, 0x7F#8]) (openFrame par .esc [0x01#8, 0x0A#8, 0x7D#8])) =
      some ([[0x01#8, 0x0A#8, 0x5F#8, 0x7E#8, 0x02#8, 0xAA#8]], .idle, []) ∧
    seen (exec (.submit [0x7F#8, 0x7E#8, 0x02#8, 0xAA#8, 0x7F#8]) (openFrame parR .esc [0x01#8, 0x0A#8, 0x7D#8])) =
      some ([[0x02#8, 0xAA#8]], .idle, []) := by decide

/-- R243: a history in the grammar, and three that are not. -/
theorem test_histories :
    wellFormedHistory [.reset, .byte 0x7E#8, .close, .openSession, .byte 0x7F#8, .close] = true ∧
    wellFormedHistory [.byte 0x7E#8] = false ∧ wellFormedHistory [.reset, .close, .byte 0x7E#8] = false ∧
    wellFormedHistory [] = false := by decide

/-- R40: a payload on the pins byte by byte, then the done pulse, "also for an empty payload", `gp_*` unchanged; and
T1 on the pins, its last cycles: `gp_*` already hold the new values at the pulse of `gp_changed`, and stay. -/
theorem test_pins :
    OutEvent.cycles g1 (.frame [0x41#8]) = [⟨some 0x41#8, false, false, g1⟩, ⟨none, true, false, g1⟩] ∧
    OutEvent.cycles g1 (.frame []) = [⟨none, true, false, g1⟩] ∧
    ((nextOf (exec (.deliver [0x01#8, 0x0A#8, 0x14#8, 0x1E#8, 0x28#8, 0x24#8, 0x05#8]) (fresh par))).map
      fun t => ((fresh par).outCycles t).drop 7) =
      some [⟨none, true, false, Gamepad.neutral 0x80#8⟩, ⟨none, false, true, g1⟩, ⟨none, false, false, g1⟩] := by
  decide

/-- R152: the raw frame `7D 5F` in the streaming form, which holds two bytes where the block holds three; V9r. -/
theorem test_streaming :
    Streamer.run (depth 2 par) [0x7E#8, 0x7D#8, 0x5F#8, 0x7F#8] Streamer.idle = some (Streamer.idle, [[0x7F#8]]) ∧
    refusalOf (exec (.submit [0x7E#8, 0x7D#8, 0x5F#8, 0x7F#8]) (fresh (depth 2 par))) = some .accOverflow ∧
    Streamer.run (depth 1 par) [0x7E#8, 0x7D#8, 0x5F#8] Streamer.idle = none ∧
    Streamer.run parR [0x7E#8, 0x41#8, 0x7E#8, 0x42#8, 0x7F#8] Streamer.idle = some (Streamer.idle, [[0x42#8]]) := by
  decide

/-- R220: the steps of all four inputs presented together, and of Close with a byte. -/
theorem test_simultaneous :
    InPins.inputs ⟨true, true, true, some 0x7E#8⟩ = [.reset, .close, .openSession, .byte 0x7E#8] ∧
    InPins.inputs ⟨true, false, false, some 0x7E#8⟩ = [.reset, .byte 0x7E#8] ∧
    InPins.inputs ⟨true, false, true, none⟩ = [.reset, .openSession] := by decide

/-! ### Witnesses: a state and operands that meet the hypotheses of each obligation, clause by clause -/

theorem wit_DecodeOfEncodeGivesBack :
    (Instr.gpNop [0#8, 0#8, 0#8, 0#8, 0#8]).wf par = true ∧ (Instr.dirUnrecognizedCF 3#2).wf par = true := by decide

theorem wit_EncodeOfDecodeGivesBack :
    decode par .unit [0x7D#8, 0x7D#8, 0x41#8] = .ok (.decPair 0x7D#8, [0x41#8]) := rfl

theorem wit_EveryByteSelectsExactlyOneRow :
    (Instr.huntDrop 0xFF#8).context = .mode .idle ∧ (Instr.huntDrop 0xFF#8).wf par = true ∧
    encode par (.huntDrop 0xFF#8) = [0xFF#8] := by decide

theorem wit_StepRunsTheFetchedInstruction :
    (fresh par).inputs = [] ∧
    { fresh par with inputs := [.byte 0x7E#8, .close] }.inputs = .byte 0x7E#8 :: [.close] ∧
    { fresh par with inputs := [.reset] }.inputs = .reset :: [] ∧
    { fresh par with inputs := [.openSession] }.inputs = .openSession :: [] ∧
    { fresh par with inputs := [.close] }.inputs = .close :: [] ∧
    decode (fresh par).params .nibble [0x08#8] = .ok (.dirNone, []) ∧
    decode (fresh par).params .nibble [0x08#8, 0x00#8] = .ok (.dirNone, [0x00#8]) ∧
    decode (fresh par).params .nibble [0x10#8] = .error (.notNibble 0x10#8) :=
  ⟨rfl, rfl, rfl, rfl, rfl, rfl, rfl, rfl⟩

theorem wit_PlacedWordRunsNext :
    decodeTableWord 8 0xFF = some (.huntDrop 0xFF#8) ∧ decodeTableWord 4 0 = some .dirUp ∧
    decodeTableWord 16 0x7D00 = some (.decPair 0#8) ∧
    decodeTableWord 48 0 = some (.gpUpdate 0#8 0#8 0#8 0#8 0#8 0#8 []) := by decide

theorem wit_NoiseLeavesNoTrace : (fresh par).mode = .idle ∧ (0x7D#8 : Byte) ≠ 0x7E#8 := by decide

/-- The least accumulator that holds a start marker. -/
theorem wit_StartMarkerOpensFrame :
    (fresh (depth 1 par)).mode = .idle ∧ ∀ d ∈ (fresh (depth 1 par)).params.accDepth, 1 ≤ d := by decide

/-- One place left. -/
theorem wit_DataByteIsAppended :
    (openFrame (depth 2 par) .frame []).mode = .frame ∧ (openFrame (depth 2 par) .frame []).acc ≠ [] ∧
    (∀ d ∈ (openFrame (depth 2 par) .frame []).params.accDepth, (openFrame (depth 2 par) .frame []).acc.length < d) ∧
    (0x80#8 : Byte) ≠ 0x7D#8 ∧ (0x80#8 : Byte) ≠ 0x7E#8 ∧ (0x80#8 : Byte) ≠ 0x7F#8 := by decide

theorem wit_StartMarkerInsideFrame :
    (openFrame (depth 2 par) .frame []).mode = .frame ∧ (openFrame (depth 2 par) .frame []).acc ≠ [] ∧
    (openFrame (depth 1 parR) .frame []).mode = .frame ∧
    ((openFrame (depth 2 par) .frame []).params.sofResync = false ∧
      (∀ d ∈ (openFrame (depth 2 par) .frame []).params.accDepth,
        (openFrame (depth 2 par) .frame []).acc.length < d)) ∧
    (openFrame (depth 1 parR) .frame []).params.sofResync = true ∧
    (∀ d ∈ (openFrame (depth 1 parR) .frame []).params.accDepth, 1 ≤ d) := by decide

theorem wit_EscapeMarkerIsKeptAndWaits :
    (openFrame (depth 2 par) .frame []).mode = .frame ∧ (openFrame (depth 2 par) .frame []).acc ≠ [] ∧
    (∀ d ∈ (openFrame (depth 2 par) .frame []).params.accDepth,
      (openFrame (depth 2 par) .frame []).acc.length < d) ∧
    (openFrame par .esc [0x7D#8]).mode = .esc ∧ (openFrame par .esc [0x7D#8]).inputs = [] := by decide

theorem wit_EscapedByteIsStoredUnexamined :
    (openFrame (depth 3 parR) .esc [0x7D#8]).mode = .esc ∧ (openFrame (depth 3 parR) .esc [0x7D#8]).acc ≠ [] ∧
    (∀ d ∈ (openFrame (depth 3 parR) .esc [0x7D#8]).params.accDepth,
      (openFrame (depth 3 parR) .esc [0x7D#8]).acc.length < d) := by decide

theorem wit_EndMarkerClosesAndDelivers : (openFrame par .frame []).mode = .frame := rfl

/-- A full accumulator in FRAME and in ESC mode, and no room even for a start marker. -/
theorem wit_OverflowIsRefused :
    (openFrame (depth 1 par) .frame []).params.accDepth = some 1 ∧
    (openFrame (depth 1 par) .frame []).acc ≠ [] ∧ (openFrame (depth 1 par) .frame []).mode = .frame ∧
    (openFrame (depth 1 par) .frame []).params.sofResync = false ∧ isReserved 0x41#8 = false ∧
    1 ≤ (openFrame (depth 1 par) .frame []).acc.length ∧
    (openFrame (depth 2 par) .esc [0x7D#8]).params.accDepth = some 2 ∧
    2 ≤ (openFrame (depth 2 par) .esc [0x7D#8]).acc.length ∧
    (openFrame (depth 2 par) .esc [0x7D#8]).acc ≠ [] ∧ (openFrame (depth 2 par) .esc [0x7D#8]).mode = .esc ∧
    (fresh (depth 0 par)).params.accDepth = some 0 ∧ (fresh (depth 0 par)).mode = .idle ∧
    (openFrame (depth 0 parR) .frame []).params.accDepth = some 0 ∧
    (openFrame (depth 0 parR) .frame []).mode = .frame ∧
    (openFrame (depth 0 parR) .frame []).params.sofResync = true := by decide

theorem wit_RowsOutsideTheirContextAreRefused :
    (openFrame par .frame []).mode ≠ .idle ∧ (fresh par).mode ≠ .frame ∧ (fresh par).mode ≠ .esc ∧
    (fresh parR).params.sofResync = true ∧ (fresh par).params.sofResync = false ∧ isReserved 0x7F#8 = true ∧
    6 ≤ ([0#8, 0#8, 0#8, 0#8, 0#8, 0#8] : List Byte).length := by decide

theorem wit_ModeTransitionTable :
    exec (.stepByte 0x7D#8) (openFrame par .frame []) = .next (openFrame par .esc [0x7D#8]) ∧
    ¬ ((openFrame par .frame []).mode = .frame ∧ (0x7D#8 : Byte) = 0x7F#8) := ⟨rfl, by decide⟩

/-- At rest with room for exactly the bytes that come. -/
theorem wit_BytesAndChunksComplete :
    (openFrame (depth 3 par) .esc [0x7D#8]).AccAnchored ∧
    (∀ d ∈ (openFrame (depth 3 par) .esc [0x7D#8]).params.accDepth,
      (openFrame (depth 3 par) .esc [0x7D#8]).acc.length < d) ∧
    (∀ d ∈ (openFrame (depth 3 par) .esc [0x7D#8]).params.accDepth,
      (openFrame (depth 3 par) .esc [0x7D#8]).acc.length + [0x7F#8].length ≤ d) := by decide

theorem wit_BatchSubmitTrimsScansAndRepeats :
    (0x7E#8 ∉ ([0x55#8] : List Byte) ++ [0x7F#8]) ∧
    (([] : List Byte) ++ [0x55#8, 0x7E#8, 0x7D#8] = [0x55#8] ++ 0x7E#8 :: [0x7D#8] ∧
      0x7E#8 ∉ ([0x55#8] : List Byte) ∧ scan (0x7E#8 :: [0x7D#8]) = .incomplete 3) ∧
    scan (0x7E#8 :: [0x7F#8]) = .endAt 1 ∧
    (∀ d ∈ (openFrame (depth 2 par) .frame []).params.accDepth,
      (openFrame (depth 2 par) .frame []).acc.length + [0x7F#8].length ≤ d) ∧
    (∀ d ∈ (openFrame (depth 2 parR) .frame []).params.accDepth,
      (openFrame (depth 2 parR) .frame []).acc.length + [0x7E#8].length ≤ d) := by decide

theorem wit_BatchEqualsPerByte :
    (openFrame par .esc [0x7D#8]).AccAnchored ∧ (openFrame par .esc [0x7D#8]).params.sofResync = false ∧
    (openFrame par .esc [0x7D#8]).params.accDepth = none := by decide

theorem wit_BatchSubmitStops :
    ∃ d ∈ (openFrame (depth 1 par) .frame []).params.accDepth,
      d < (openFrame (depth 1 par) .frame []).acc.length + [0x7F#8].length := ⟨1, rfl, by decide⟩

theorem wit_DeliveredFramesAreWholeUnits :
    ((fresh parR).mode = .idle ∧ (fresh parR).acc = [] ∧
      exec (.submit [0x7E#8, 0x7D#8, 0x7E#8]) (fresh parR) = .next (openFrame parR .frame [0x7D#8, 0x7E#8]) ∧
      (openFrame parR .frame [0x7D#8, 0x7E#8]).mode = .frame ∧ (fresh parR).params.sofResync = true) ∧
    (openFrame parR .esc [0x7D#8]).AccAnchored ∧ (openFrame parR .esc [0x7D#8]).Resynced ∧
    exec (.stepByte 0x7E#8) (openFrame parR .esc [0x7D#8]) = .next (openFrame parR .frame [0x7D#8, 0x7E#8]) :=
  ⟨⟨rfl, rfl, rfl, rfl, rfl⟩, by decide, by decide, rfl⟩

theorem wit_GarbageIsRejected : (fresh par).mode = .idle ∧ 0x7E#8 ∉ ([0x01#8, 0x7D#8, 0x7F#8] : List Byte) := by
  decide

/-- One step of each kind: a byte appended, a frame delivered, a frame restarted, a frame closed from outside. -/
theorem wit_PartialFrameIsHeld :
    seen (step { openFrame par .frame [] with inputs := [.byte 0x41#8] }) = some ([], .frame, [0x7E#8, 0x41#8]) ∧
    seen (step { openFrame par .frame [] with inputs := [.byte 0x7F#8] }) = some ([[]], .idle, []) ∧
    seen (step { openFrame parR .frame [0x41#8] with inputs := [.byte 0x7E#8] }) = some ([], .frame, [0x7E#8]) ∧
    seen (step { openFrame par .frame [0x41#8] with inputs := [.close] }) = some ([], .idle, []) ∧
    (∀ x ∈ [Input.byte 0x41#8, .close], x.isEvent = true) := by decide

theorem wit_DecodeRowsProduceTheirBytes : (0x7E#8 : Byte) ≠ 0x7D#8 := by decide

theorem wit_UnescapeInvertsBitFive :
    (0x5F#8 : Byte).getLsbD 5 = false ∧ (0x7F#8 : Byte).getLsbD 5 = true ∧ isReserved 0x7D#8 = true := by decide

theorem wit_TransmitRowsSendTheirBytes :
    (0x5E#8 : Byte) ≠ 0x7E#8 ∧ (0x5E#8 : Byte) ≠ 0x7D#8 ∧ (0x5E#8 : Byte) ≠ 0x7F#8 := by decide

theorem wit_EscapeLeavesNoMarker : (escape [0x01#8, 0x7D#8])[1]? = some 0x7D#8 := by decide

/-- The accumulator that the wrapped payload just fills. -/
theorem wit_WrappedPayloadIsDelivered :
    (fresh (depth 3 par)).mode = .idle ∧
    (∀ d ∈ (fresh (depth 3 par)).params.accDepth, (escape [0x7F#8]).length + 1 ≤ d) := by decide

theorem wit_CanonicalFramesAreEscapes :
    [0x7D#8, 0x5E#8] = escape [0x7E#8] ∧ 0x7E#8 ∉ ([0x7D#8, 0x5E#8] : List Byte) ∧
    0x7F#8 ∉ ([0x7D#8, 0x5E#8] : List Byte) ∧ endsDangling [0x7D#8, 0x5E#8] = false ∧
    pairsCanonical [0x7D#8, 0x5E#8] = true := by decide

theorem wit_StreamingFormDeliversTheSame :
    ((openFrame par .esc [0x7D#8]).AccAnchored ∧
      exec (.submit [0x5F#8]) (openFrame par .esc [0x7D#8]) = .next (openFrame par .frame [0x7D#8, 0x5F#8])) ∧
    (depth 2 par).accDepth = some 2 ∧ [0x7F#8].length + 1 ≤ 2 ∧
    (depth 1 par).accDepth = some 1 ∧ 1 < [0x7F#8].length + 1 :=
  ⟨⟨by decide, rfl⟩, by decide⟩

theorem wit_ShortSubPayloadChangesNothing : ([0#8, 0#8, 0#8, 0#8, 0#8] : List Byte).length < 6 := by decide

theorem wit_GamepadRowIsSelectedByLength :
    ([0#8, 0#8, 0#8, 0#8, 0#8] : List Byte).length < 6 ∧
    ([1#8, 2#8, 3#8, 4#8, 5#8, 6#8] : List Byte) = 1#8 :: 2#8 :: 3#8 :: 4#8 :: 5#8 :: 6#8 :: [] := by decide

theorem wit_DirectionRowsWriteTheirDirection : 9 ≤ (9#4 : Nibble).toNat ∧ 9 ≤ (15#4 : Nibble).toNat := by decide

/-- Seven bytes with the tag, six bytes with the tag, another tag, no tag. -/
theorem wit_DeliverDecodesEmitsAndDispatches :
    unstuff [0x01#8, 1#8, 2#8, 3#8, 4#8, 5#8, 6#8] = par.tagState :: 1#8 :: 2#8 :: 3#8 :: 4#8 :: 5#8 :: 6#8 :: [] ∧
    (unstuff [0x01#8, 1#8, 2#8, 3#8, 4#8, 5#8]).length < 7 ∧
    (unstuff [0x02#8]).head? ≠ some par.tagState ∧ (unstuff []).head? ≠ some par.tagState := by decide

theorem wit_TagRowsDispatchThePayload :
    ([1#8, 2#8, 3#8, 4#8, 5#8] : List Byte).length < 6 ∧ 6 ≤ ([1#8, 2#8, 3#8, 4#8, 5#8, 6#8] : List Byte).length ∧
    ([] : List Byte).head? ≠ some par.tagState := by decide

theorem wit_ControlOperations :
    (fresh par).params.gpResetOnOpen = true ∧
    (fresh { par with gpResetOnOpen := false }).params.gpResetOnOpen = false := by decide

theorem wit_ResetStateIsNeutral :
    { openFrame par .esc [0x7D#8] with params := State.reset.params, gp := g1 }.params = State.reset.params := rfl

/-- A state at rest in the middle of a frame, after a state message, with a byte to come. -/
def atRest (p : Params) (m : Mode) (body : List Byte) (x : Input) : State :=
  { openFrame p m body with gp := g1, out := eventsOf 0x01#8 [0x01#8, 0x0A#8, 0x14#8, 0x1E#8, 0x28#8, 0x24#8, 0x05#8]
                            inputs := [x] }

theorem wit_EveryStepKeepsTheInvariant :
    (atRest parR .frame [0x41#8] (.byte 0x7D#8)).Inv ∧
    step (atRest parR .frame [0x41#8] (.byte 0x7D#8)) =
      .next { atRest parR .esc [0x41#8, 0x7D#8] .close with inputs := [] } :=
  ⟨⟨by decide, by decide, by decide, by decide, by decide, rfl, by decide⟩, rfl⟩

theorem wit_UnboundedMachineNeverStops :
    (atRest par .esc [0x7D#8] (.byte 0x7F#8)).Inv ∧ (atRest par .esc [0x7D#8] (.byte 0x7F#8)).params.accDepth = none :=
  ⟨⟨by decide, by decide, by decide, by decide, by decide, rfl, by decide⟩, rfl⟩

theorem wit_OverflowIsTheOnlyStop :
    (atRest (depth 2 par) .frame [0x41#8] (.byte 0x42#8)).Inv ∧
    step (atRest (depth 2 par) .frame [0x41#8] (.byte 0x42#8)) = .refused .accOverflow :=
  ⟨⟨by decide, by decide, by decide, by decide, by decide, rfl, by decide⟩, rfl⟩

theorem wit_OutputIsAppendOnly :
    exec (.deliver []) (fresh par) = .next { fresh par with out := [.frame []] } := rfl

theorem wit_GamepadIsWrittenOnlyByStateMessages :
    pad (step { openFrame par .frame [0x01#8, 0x0A#8, 0x14#8, 0x1E#8, 0x28#8, 0x24#8, 0x05#8] with
      inputs := [.byte 0x7F#8] }) = some (g1, 1) ∧
    g1 ≠ (fresh par).gp ∧ pad (step { fresh par with gp := g1, inputs := [.openSession] }) ≠ some (g1, 0) := by decide

theorem wit_OtherTagsAreNeverRead :
    { par with tagErrFifo := 0xFF#8 } ≠ par ∧ { par with tagErrFifo := 0xFF#8 }.tagState = par.tagState ∧
    { par with tagErrFifo := 0xFF#8 }.accDepth = par.accDepth ∧
    { par with tagErrFifo := 0xFF#8 }.axisNeutral = par.axisNeutral ∧
    { par with tagErrFifo := 0xFF#8 }.sofResync = par.sofResync ∧
    { par with tagErrFifo := 0xFF#8 }.gpResetOnOpen = par.gpResetOnOpen := by decide

/-- The three modes, with room for one byte and for the next frame. -/
theorem wit_BlockResynchronises :
    (fresh (depth 3 par)).AccAnchored ∧ (openFrame (depth 3 par) .frame [0x41#8]).AccAnchored ∧
    (openFrame (depth 3 par) .esc [0x7D#8]).AccAnchored ∧
    (∀ d ∈ (openFrame (depth 3 par) .esc [0x7D#8]).params.accDepth,
      (openFrame (depth 3 par) .esc [0x7D#8]).acc.length + 1 ≤ d ∧ (escape [0x7E#8]).length + 1 ≤ d) := by decide

theorem wit_LostEndMarkerMergesOrDrops :
    (openFrame (depth 4 par) .frame [0x01#8]).mode = .frame ∧
    (openFrame (depth 4 par) .frame [0x01#8]).acc = 0x7E#8 :: [0x01#8] ∧ endsDangling [0x01#8] = false ∧
    (∀ d ∈ (openFrame (depth 4 par) .frame [0x01#8]).params.accDepth,
      (openFrame (depth 4 par) .frame [0x01#8]).acc.length + (escape [0x02#8]).length + 1 ≤ d) ∧
    (openFrame (depth 4 par) .frame [0x01#8]).params.sofResync = false ∧
    (openFrame (depth 4 parR) .frame [0x01#8]).params.sofResync = true := by decide

theorem wit_SessionsRunToTheirEnd :
    (atRest par .esc [0x7D#8] .close).Inv ∧ (atRest par .esc [0x7D#8] .close).params.accDepth = none ∧
    wellFormedHistory [.reset, .byte 0x7E#8, .close] = true ∧
    [Input.reset, .byte 0x7E#8, .close].getLast? = some .close :=
  ⟨⟨by decide, by decide, by decide, by decide, by decide, rfl, by decide⟩, rfl, by decide, by decide⟩

theorem wit_SimultaneousInputsAreOrdered :
    (openFrame par .frame []).inputs = [] ∧
    Input.close ∈ InPins.inputs ⟨false, true, false, some 0x41#8⟩ ∧
    Input.byte 0x41#8 ∈ InPins.inputs ⟨true, false, false, some 0x41#8⟩ ∧
    Input.reset ∈ InPins.inputs ⟨true, false, true, none⟩ ∧
    Input.openSession ∈ InPins.inputs ⟨true, false, true, none⟩ := by decide

theorem wit_InstancesShareNothing :
    (1 : Nat) ≠ 0 ∧ [fresh par, { fresh par with inputs := [.byte 0x7E#8] }][1]? =
      some { fresh par with inputs := [.byte 0x7E#8] } ∧
    step { fresh par with inputs := [.byte 0x7E#8] } = .next (openFrame par .frame []) :=
  ⟨by decide, rfl, rfl⟩

end Sys2Proof.Tests
end

namespace Sys2Proof.Machine

open Config (esc sof eof)

/-! ### The transmit-side rows (R78, R148) -/

/-- TX.LIT on a byte its table row does not exclude. -/
theorem exec_txLit_of_unreserved {b : Byte} (hb : isReserved b = false) (s : State) :
    exec (.txLit b) s = .next (s.sendBytes [b]) :=
  inContext_true hb _

/-- Running the transmit row a byte selects is `sendByte`, the step FRAMEWRAP takes for that byte. -/
theorem exec_decodeTx (b : Byte) (s : State) : exec (decodeTx b) s = .next (sendByte b s) := by
  cases hb : isReserved b
  · obtain ⟨hsof, hesc, heof⟩ : b ≠ sof ∧ b ≠ esc ∧ b ≠ eof := by
      simpa [isReserved_iff] using (Bool.eq_false_iff.1 hb)
    rw [decodeTx, if_neg hsof, if_neg hesc, if_neg heof, exec_txLit_of_unreserved hb,
      sendByte, if_neg hsof, if_neg hesc, if_neg heof]
  · obtain rfl | rfl | rfl := (isReserved_iff b).1 hb <;> rfl

/-- The spec's spelling of the reserved bytes (R78): the order and the numerals of its table. -/
theorem isReserved_iff_literal (b : Byte) : isReserved b = true ↔ b = 0x7E#8 ∨ b = 0x7D#8 ∨ b = 0x7F#8 :=
  isReserved_iff b

/-- Settles O32: the fixed rows run as written, and the row a byte selects is `sendByte`, which appends that
byte's part of Escape. -/
theorem transmitRowsSendTheirBytes : Obligations.TransmitRowsSendTheirBytes := by
  intro s
  refine ⟨rfl, rfl, rfl, fun b hsof hesc heof => ?_, fun b => ?_⟩
  · have hb : isReserved b = false := by simp [isReserved_iff_literal, Bool.eq_false_iff, hsof, hesc, heof]
    exact exec_txLit_of_unreserved hb s
  · rw [exec_decodeTx, sendByte_eq]
    simp only [isReserved_iff_literal]
    rfl

end Sys2Proof.Machine

namespace Sys2Proof.Machine

open Config (esc sof eof)

/-! ### The Frame Assembler's rows in their contexts (R110 to R119) -/

/-- HUNT.DROP in its context (R111). -/
theorem exec_huntDrop_of_ne_sof {s : State} {b : Byte} (hm : s.mode = .idle) (hb : b ≠ sof) :
    exec (.huntDrop b) s = .next s :=
  inContext_true ⟨hm, hb⟩ _

/-- STEP on noise in IDLE mode (R111). -/
theorem execStepByte_idle_of_ne_sof {s : State} {b : Byte} (hm : s.mode = .idle) (hb : b ≠ sof) :
    execStepByte b s = .next s := by
  rw [execStepByte, hm]
  exact (if_neg hb).trans (exec_huntDrop_of_ne_sof hm hb)

/-- STEP on the start marker in IDLE mode is HUNT.SOF (R112). -/
theorem execStepByte_idle_sof {s : State} (hm : s.mode = .idle) : execStepByte sof s = execHuntSof s := by
  rw [execStepByte, hm]
  exact if_pos rfl

/-- HUNT.SOF where the accumulator can hold one byte (R112). -/
theorem exec_huntSof_of_canRestart {s : State} (hm : s.mode = .idle) (hr : s.canRestart = true) :
    exec .huntSof s = .next ((s.setAcc [sof]).setMode .frame) := by
  have hacc : s.accRestart = .next (s.setAcc [sof]) := if_pos hr
  simp [exec, execHuntSof, hm, hacc]

/-- FRM.DATA in its context, where there is room (R113). -/
theorem exec_frmData_of_room {s : State} {b : Byte} (hm : s.mode = .frame) (hb : isReserved b = false)
    (ha : s.acc ≠ []) (hr : s.hasRoom = true) : exec (.frmData b) s = .next (s.setAcc (s.acc ++ [b])) :=
  (inContext_true ⟨hm, hb⟩ _).trans (accAppend_room b ha hr)

/-- FRM.ESC where there is room (R116). -/
theorem exec_frmEsc_of_room {s : State} (hm : s.mode = .frame) (ha : s.acc ≠ []) (hr : s.hasRoom = true) :
    exec .frmEsc s = .next ((s.setAcc (s.acc ++ [esc])).setMode .esc) := by
  simp [exec, execFrmEsc, hm, accAppend_room esc ha hr]

/-- ESC.ANY where there is room, whatever the byte (R118). -/
theorem exec_escAny_of_room {s : State} (b : Byte) (hm : s.mode = .esc) (ha : s.acc ≠ [])
    (hr : s.hasRoom = true) : exec (.escAny b) s = .next ((s.setAcc (s.acc ++ [b])).setMode .frame) := by
  simp [exec, execEscAny, hm, accAppend_room b ha hr]

/-- FRM.EOF is DELIVER of the bytes after the start marker, run on the emptied assembler (R117). -/
theorem exec_frmEof_eq_deliver {s : State} (hm : s.mode = .frame) :
    exec .frmEof s = exec (.deliver s.accBody) s.toIdle :=
  inContext_true hm _

/-- The bytes that are no marker (R75). -/
theorem isReserved_eq_false_iff (b : Byte) : isReserved b = false ↔ b ≠ esc ∧ b ≠ sof ∧ b ≠ eof := by
  rw [← Bool.not_eq_true, isReserved_iff]
  tauto

/-- The row of a byte that is no marker, in FRAME mode (R113). -/
theorem decodeByte_frame_of_not_reserved (p : Params) {b : Byte} (hb : isReserved b = false) :
    decodeByte p .frame b = .frmData b := by
  obtain ⟨hesc, hsof, heof⟩ := (isReserved_eq_false_iff b).1 hb
  simp [decodeByte, hsof, hesc, heof]

/-- A wait: without an input the step leaves the state as it is (R229). -/
theorem step_of_no_inputs {s : State} (h : s.inputs = []) : step s = .next s := by
  rw [step, h]

/-- Settles O14: FRM.EOF is DELIVER on the emptied assembler, and `deliver_eq` says what that leaves. -/
theorem endMarkerClosesAndDelivers : Obligations.EndMarkerClosesAndDelivers := by
  intro s hm
  have hrow := exec_frmEof_eq_deliver hm
  refine ⟨rfl, hrow, hrow.trans ?_⟩
  exact congrArg Host.Outcome.next (deliver_eq s.accBody s.toIdle)

/-- Settles O8: noise is dropped, the escape marker included, so that the start marker after it is met in the same
state. -/
theorem noiseLeavesNoTrace : Obligations.NoiseLeavesNoTrace := by
  intro s hm
  refine ⟨fun b hb => ⟨if_neg hb, exec_huntDrop_of_ne_sof hm hb⟩, ?_⟩
  have hesc : execStepByte esc s = .next s := execStepByte_idle_of_ne_sof hm (by decide)
  calc exec (.submit [esc, sof]) s
      = andThen (execStepByte esc s) (submitBytes [sof]) := rfl
    _ = andThen (execStepByte sof s) .next := by rw [hesc]; rfl
    _ = exec .huntSof s := by
      rw [execStepByte_idle_sof hm, exec]
      cases execHuntSof s <;> rfl

/-- Settles O9: HUNT.SOF with room for the start marker. -/
theorem startMarkerOpensFrame : Obligations.StartMarkerOpensFrame := fun _ hm hd =>
  ⟨rfl, exec_huntSof_of_canRestart hm (canRestart_iff.2 hd)⟩

/-- Settles O10: a byte that is none of the three markers selects FRM.DATA, which appends it. -/
theorem dataByteIsAppended : Obligations.DataByteIsAppended := by
  intro s b hm ha hd hesc hsof heof
  have hb : isReserved b = false := (isReserved_eq_false_iff b).2 ⟨hesc, hsof, heof⟩
  exact ⟨decodeByte_frame_of_not_reserved _ hb, exec_frmData_of_room hm hb ha (hasRoom_iff.2 hd)⟩

/-- Settles O12: FRM.ESC appends its marker; in ESC mode, as in any, no input means no change. -/
theorem escapeMarkerIsKeptAndWaits : Obligations.EscapeMarkerIsKeptAndWaits := fun _ =>
  ⟨fun hm ha hd => ⟨rfl, exec_frmEsc_of_room hm ha (hasRoom_iff.2 hd)⟩, fun _ hin => step_of_no_inputs hin⟩

/-- Settles O13: the one row of ESC mode takes every byte, under either setting of SOF_RESYNC. -/
theorem escapedByteIsStoredUnexamined : Obligations.EscapedByteIsStoredUnexamined := fun _ b hm ha hd =>
  ⟨rfl, exec_escAny_of_room b hm ha (hasRoom_iff.2 hd)⟩

/-- Settles O18: the two equations of SUBMIT's recursion over the chunk, by the three answers of STEP. -/
theorem chunkIsStepOnEveryByte : Obligations.ChunkIsStepOnEveryByte := by
  intro s
  refine ⟨rfl, fun b c => ?_⟩
  show andThen (execStepByte b s) (submitBytes c) = _
  rw [exec]
  cases execStepByte b s <;> rfl

end Sys2Proof.Machine

namespace Sys2Proof.Machine

open Config (esc sof eof)

/-! ### The Payload Decoder: the rows, Decode's walk and Escape (R141 to R148) -/

/-- The unit equations of the decoder (R87), beside those of the functions that walk a body. -/
@[simp] theorem decodeUnit_dangling : decodeUnit [esc] = .ok (.decTrunc, []) := rfl
@[simp] theorem decodeUnit_pair (x : Byte) (r : List Byte) : decodeUnit (esc :: x :: r) = .ok (.decPair x, r) := rfl
theorem decodeUnit_lit {b : Byte} (r : List Byte) (h : ¬ (b = esc)) : decodeUnit (b :: r) = .ok (.decLit b, r) := by
  cases r <;> exact if_neg h

/-- DEC.LIT in its context (R141). -/
theorem exec_decLit_of_ne_esc {b : Byte} (h : ¬ (b = esc)) (s : State) :
    exec (.decLit b) s = .next (s.takeLiteral b) :=
  inContext_true h _

/-- DECODE as one write of the working values (R144). -/
theorem exec_decodeFrame (f : List Byte) (s : State) :
    exec (.decodeFrame f) s = .next (s.setWork ⟨unstuff f, f.length - (endsDangling f).toNat⟩) :=
  congrArg Host.Outcome.next (runDecode_eq f s)

/-- Settles O29: the unit equations of Decode and of the scan, and what the walk leaves. -/
theorem decodeWalkIsTheRecursion : Obligations.DecodeWalkIsTheRecursion :=
  ⟨⟨unstuff_nil, unstuff_dangling, unstuff_pair, fun _ r hb => unstuff_lit r hb⟩,
    fun i x r => ⟨scanFrom_pair i x r, scanFrom_dangling i⟩,
    fun s f => exec_decodeFrame f s⟩

/-- Settles O28: a unit selects its row by its equation, and the row takes the unit. -/
theorem decodeRowsProduceTheirBytes : Obligations.DecodeRowsProduceTheirBytes := fun s =>
  ⟨fun _ rest hb => ⟨decodeUnit_lit rest hb, exec_decLit_of_ne_esc hb s⟩,
    fun x rest => ⟨decodeUnit_pair x rest, rfl⟩,
    decodeUnit_dangling, rfl⟩

@[simp] theorem escape_nil : escape [] = [] := rfl

/-- Escape of a marker value is an escaped pair (R148). -/
theorem escape_cons_of_reserved {b : Byte} (p : List Byte) (hb : isReserved b = true) :
    escape (b :: p) = esc :: (b ^^^ Config.xorMask) :: escape p := by
  simp [escape, hb]

/-- Escape of any other byte is the byte (R148). -/
theorem escape_cons_of_unreserved {b : Byte} (p : List Byte) (hb : isReserved b = false) :
    escape (b :: p) = b :: escape p := by
  simp [escape, hb]

/-- The three escaped forms (R148): the second bytes of the canonical pairs. -/
theorem escapedForm_of_reserved {b : Byte} (hb : isReserved b = true) :
    b ^^^ Config.xorMask = 0x5E#8 ∨ b ^^^ Config.xorMask = 0x5D#8 ∨ b ^^^ Config.xorMask = 0x5F#8 := by
  obtain rfl | rfl | rfl := (isReserved_iff b).1 hb <;> decide

theorem escape_eq_flatMap (p : List Byte) :
    escape p = p.flatMap fun b => if isReserved b then [esc, b ^^^ Config.xorMask] else [b] := by
  induction p with
  | nil => rfl
  | cons b p ih => rw [escape_cons, ih, List.flatMap_cons]

theorem length_escape (p : List Byte) : (escape p).length = p.length + p.countP isReserved := by
  induction p with
  | nil => rfl
  | cons b p ih =>
    rw [escape_cons, List.length_append, ih, List.length_cons, List.countP_cons]
    split
    · rw [List.length_cons, List.length_singleton]; omega
    · rw [List.length_singleton]; omega

/-- Neither frame marker survives Escape: what it writes is its own marker, an escaped form or a byte that is no
marker. -/
theorem ne_sof_and_ne_eof_of_mem_escape {p : List Byte} {v : Byte} (hv : v ∈ escape p) : v ≠ sof ∧ v ≠ eof := by
  induction p with
  | nil => cases hv
  | cons b p ih =>
    cases hb : isReserved b
    · obtain rfl | hv := List.mem_cons.1 (escape_cons_of_unreserved p hb ▸ hv)
      · exact ((isReserved_eq_false_iff v).1 hb).2
      · exact ih hv
    · obtain rfl | hv := List.mem_cons.1 (escape_cons_of_reserved p hb ▸ hv)
      · decide
      · obtain rfl | hv := List.mem_cons.1 hv
        · obtain h | h | h := escapedForm_of_reserved hb <;> rw [h] <;> decide
        · exact ih hv

/-- Escape leaves no escape pending. -/
theorem endsDangling_escape (p : List Byte) : endsDangling (escape p) = false := by
  induction p with
  | nil => rfl
  | cons b p ih =>
    cases hb : isReserved b
    · rwa [escape_cons_of_unreserved p hb, endsDangling_lit _ ((isReserved_eq_false_iff b).1 hb).1]
    · rwa [escape_cons_of_reserved p hb, endsDangling_pair]

/-- Every pair of an escaped payload is canonical. -/
theorem pairsCanonical_escape (p : List Byte) : pairsCanonical (escape p) = true := by
  induction p with
  | nil => rfl
  | cons b p ih =>
    cases hb : isReserved b
    · rwa [escape_cons_of_unreserved p hb, pairsCanonical_lit _ ((isReserved_eq_false_iff b).1 hb).1]
    · simp [escape_cons_of_reserved p hb, ih, escapedForm_of_reserved hb, or_assoc]

/-- Where every unit that an escape marker begins is a canonical pair, every escape marker, at whatever index, is
followed by an escaped form: the marker cannot be the second byte of a pair. -/
theorem escapedForm_after_esc {f : List Byte} (hd : endsDangling f = false) (hc : pairsCanonical f = true) {k : Nat}
    (hk : f[k]? = some esc) : ∃ x, f[k + 1]? = some x ∧ (x = 0x5E#8 ∨ x = 0x5D#8 ∨ x = 0x5F#8) := by
  induction f using unitInduction generalizing k with
  | nil => cases hk
  | dangling => cases hd
  | pair x r ih =>
    obtain ⟨hx, hc⟩ : (x = 0x5E#8 ∨ x = 0x5D#8 ∨ x = 0x5F#8) ∧ pairsCanonical r = true := by
      simpa [or_assoc] using hc
    match k with
    | 0 => exact ⟨x, rfl, hx⟩
    | 1 =>
      obtain rfl : x = esc := Option.some.inj hk
      exact absurd hx (by decide)
    | k + 2 => exact ih hd hc hk
  | lit b r hb ih =>
    rw [endsDangling_lit r hb] at hd
    rw [pairsCanonical_lit r hb] at hc
    match k with
    | 0 => exact absurd (Option.some.inj hk) hb
    | k + 1 => exact ih hd hc hk

/-- Settles O33: the clause about every escape marker holds because the units of what Escape writes are canonical
(`escapedForm_after_esc`); the others are inductions over the payload. -/
theorem escapeLeavesNoMarker : Obligations.EscapeLeavesNoMarker := by
  intro p
  refine ⟨?_, length_escape p, fun h => (ne_sof_and_ne_eof_of_mem_escape h).1 rfl,
    fun h => (ne_sof_and_ne_eof_of_mem_escape h).2 rfl,
    fun _ hk => escapedForm_after_esc (endsDangling_escape p) (pairsCanonical_escape p) hk⟩
  rw [escape_eq_flatMap]
  simp only [isReserved_iff_literal]
  rfl

end Sys2Proof.Machine

namespace Sys2Proof.Machine

/-! ### The Gamepad State Decoder: the two rows of GpUpdate, the direction rows, the button rows (R160 to R167) -/

/-- The bit of its byte that holds a button (R166, R167). -/
def buttonBit : Button → Nat
  | .LB => 0
  | .RB => 1
  | .LT => 2
  | .RT => 3
  | .X | .BACK => 4
  | .A | .START => 5
  | .B | .L3 => 6
  | .Y | .R3 => 7

theorem buttonMask_eq_twoPow (k : Button) : buttonMask k = BitVec.twoPow 8 (buttonBit k) := by
  cases k <;> rfl

/-- `(b AND m) ≠ 0` for a one-bit mask is that bit of `b` (R173). -/
theorem flagSet_twoPow (b : Byte) {i : Nat} (hi : i < 8) : flagSet b (BitVec.twoPow 8 i) = b.getLsbD i := by
  have hmask : BitVec.twoPow 8 i ≠ 0#8 := fun h => by simpa [hi] using congrArg (·.getLsbD i) h
  rw [flagSet, BitVec.and_twoPow]
  cases b.getLsbD i
  · rfl
  · exact bne_iff_ne.2 hmask

theorem flagSet_buttonMask (b : Byte) (k : Button) : flagSet b (buttonMask k) = b.getLsbD (buttonBit k) := by
  rw [buttonMask_eq_twoPow]
  exact flagSet_twoPow b (by cases k <;> decide)

/-- The D-pad nibble is the low nibble of its byte: the mask is not seen through it (R165). -/
theorem dpadNibble_eq_extractLsb' (byte4 : Byte) : dpadNibble byte4 = byte4.extractLsb' 0 4 := by
  rw [dpadNibble, BitVec.extractLsb'_and]
  exact BitVec.and_allOnes

/-- The row of a button writes the button's bit to the button's field (R166, R167). -/
theorem exec_decodeButton (k : Button) (b : Byte) (s : State) :
    exec (decodeButton k b) s = .next (s.setGp (s.gp.setButton k (b.getLsbD (buttonBit k)))) := by
  have hrow : exec (decodeButton k b) s = .next (s.latchButton k b) := by cases k <;> rfl
  rw [hrow, State.latchButton, flagSet_buttonMask]

/-- The row a nibble selects writes the nibble's direction (R165): in each of the sixteen nibbles both sides are one
write of `gp.dpad`. -/
theorem exec_decodeNibble (n : Nibble) (s : State) :
    exec (decodeNibble n) s = .next (s.latchDpad (dirOf n)) := by
  obtain ⟨n⟩ := n
  fin_cases n <;> rfl

theorem dirOf_eq_unrecognized : ∀ {n : Nibble}, 9 ≤ n.toNat → dirOf n = .UNRECOGNIZED := by decide

/-- What GP.UPDATE unpacks has its decoded fields from its raw registers (R31). -/
theorem unpack_decoded (lx ly rx ry byte4 byte5 : Byte) : (unpack lx ly rx ry byte4 byte5).Decoded :=
  ⟨congrArg dirOf (dpadNibble_eq_extractLsb' byte4),
    flagSet_buttonMask byte4 .X, flagSet_buttonMask byte4 .A, flagSet_buttonMask byte4 .B,
    flagSet_buttonMask byte4 .Y, flagSet_buttonMask byte5 .LB, flagSet_buttonMask byte5 .RB,
    flagSet_buttonMask byte5 .LT, flagSet_buttonMask byte5 .RT, flagSet_buttonMask byte5 .BACK,
    flagSet_buttonMask byte5 .START, flagSet_buttonMask byte5 .L3, flagSet_buttonMask byte5 .R3⟩

/-- A register file with its decoded fields from its raw registers is given by the axes and those registers. -/
theorem Gamepad.Decoded.eq_ofRaw {g : Gamepad} (h : g.Decoded) :
    g = { lx := g.lx, ly := g.ly, rx := g.rx, ry := g.ry, raw4 := g.raw4, raw5 := g.raw5
          dpad := dirOf g.dpadRaw
          X := g.raw4.getLsbD 4, A := g.raw4.getLsbD 5, B := g.raw4.getLsbD 6, Y := g.raw4.getLsbD 7
          LB := g.raw5.getLsbD 0, RB := g.raw5.getLsbD 1, LT := g.raw5.getLsbD 2, RT := g.raw5.getLsbD 3
          BACK := g.raw5.getLsbD 4, START := g.raw5.getLsbD 5, L3 := g.raw5.getLsbD 6
          R3 := g.raw5.getLsbD 7 } := by
  obtain ⟨hdpad, hX, hA, hB, hY, hLB, hRB, hLT, hRT, hBACK, hSTART, hL3, hR3⟩ := h
  rw [← hdpad, ← hX, ← hA, ← hB, ← hY, ← hLB, ← hRB, ← hLT, ← hRT, ← hBACK, ← hSTART, ← hL3, ← hR3]

/-- GP.UPDATE in every state: `gp` from the six bytes alone, then its event (R162, R170). -/
theorem exec_gpUpdate (lx ly rx ry byte4 byte5 : Byte) (rest : List Byte) (s : State) :
    exec (.gpUpdate lx ly rx ry byte4 byte5 rest) s =
      .next ((s.setGp (unpack lx ly rx ry byte4 byte5)).emit (.state (unpack lx ly rx ry byte4 byte5))) := rfl

theorem decodePad_of_short {sub : List Byte} (h : sub.length < 6) : decodePad sub = .gpNop sub := by
  match sub with
  | [] | [_] | [_, _] | [_, _, _] | [_, _, _, _] | [_, _, _, _, _] => rfl
  | _ :: _ :: _ :: _ :: _ :: _ :: _ => exact absurd h (by simp)

/-- GP.NOP in its context (R161). -/
theorem exec_gpNop_of_short {sub : List Byte} (h : sub.length < 6) (s : State) : exec (.gpNop sub) s = .next s :=
  inContext_true h _

theorem exec_gpUpdateCall_of_short {sub : List Byte} (h : sub.length < 6) (s : State) :
    exec (.gpUpdateCall sub) s = .next s :=
  congrArg Host.Outcome.next (gpUpdate_short s h)

/-- GPUPDATE is the row its sub-payload selects (R160). -/
theorem exec_gpUpdateCall_eq_decodePad (sub : List Byte) (s : State) :
    exec (.gpUpdateCall sub) s = exec (decodePad sub) s := by
  match sub with
  | [] | [_] | [_, _] | [_, _, _] | [_, _, _, _] | [_, _, _, _, _] => rfl
  | _ :: _ :: _ :: _ :: _ :: _ :: _ => rfl

/-- Settles O41: below six bytes by the lemmas about GP.NOP; on six bytes and more the row is GP.UPDATE. -/
theorem gamepadRowIsSelectedByLength : Obligations.GamepadRowIsSelectedByLength := by
  intro s sub
  refine ⟨exec_gpUpdateCall_eq_decodePad sub s, fun h => exec_gpUpdateCall_of_short h s, ?_⟩
  rintro lx ly rx ry b4 b5 rest rfl
  exact ⟨rfl, (exec_gpUpdateCall_eq_decodePad _ s).trans (exec_gpUpdate lx ly rx ry b4 b5 rest s)⟩

/-- Settles O39: the register file written is `unpack`, whose decoded fields are read off its raw registers. -/
theorem gamepadUpdateWritesEveryField : Obligations.GamepadUpdateWritesEveryField := by
  intro s lx ly rx ry b4 b5 rest g
  have hg : unpack lx ly rx ry b4 b5 = g := (unpack_decoded lx ly rx ry b4 b5).eq_ofRaw
  refine ⟨?_, rfl⟩
  rw [exec_gpUpdate, hg]
  rfl

/-- Settles O40: the row is GP.NOP, in its context. -/
theorem shortSubPayloadChangesNothing : Obligations.ShortSubPayloadChangesNothing := fun s _ h =>
  ⟨decodePad_of_short h, exec_gpNop_of_short h s, exec_gpUpdateCall_of_short h s⟩

/-- Settles O42: the rows one by one, then the row a nibble selects, DirOf's table, and GP.UPDATE. -/
theorem directionRowsWriteTheirDirection : Obligations.DirectionRowsWriteTheirDirection := by
  refine ⟨fun s => ?rows, ?table, fun s lx ly rx ry b4 b5 rest => ?update⟩
  case rows =>
    exact ⟨rfl, rfl, rfl, rfl, rfl, rfl, rfl, rfl, rfl, rfl, fun _ => rfl, fun _ => rfl,
      fun n => exec_decodeNibble n s⟩
  case table => exact ⟨rfl, rfl, rfl, rfl, rfl, rfl, rfl, rfl, rfl, fun _ => dirOf_eq_unrecognized⟩
  case update => exact ⟨_, exec_gpUpdate lx ly rx ry b4 b5 rest s, rfl, rfl⟩

/-- Settles O43: one instance of `exec_decodeButton` for each button. -/
theorem buttonRowsWriteTheirButton : Obligations.ButtonRowsWriteTheirButton := fun s b =>
  ⟨exec_decodeButton .X b s, exec_decodeButton .A b s, exec_decodeButton .B b s, exec_decodeButton .Y b s,
    exec_decodeButton .LB b s, exec_decodeButton .RB b s, exec_decodeButton .LT b s, exec_decodeButton .RT b s,
    exec_decodeButton .BACK b s, exec_decodeButton .START b s, exec_decodeButton .L3 b s,
    exec_decodeButton .R3 b s⟩

end Sys2Proof.Machine

namespace Sys2Proof.Machine

/-! ### DELIVER and its two kinds of payload (R190, R193, R194) -/

/-- The tag and six bytes after it make a state message, whatever follows (R190). -/
theorem isStateMessage_tag_cons (tagState lx ly rx ry byte4 byte5 : Byte) (rest : List Byte) :
    isStateMessage tagState (tagState :: lx :: ly :: rx :: ry :: byte4 :: byte5 :: rest) = true := by
  simp [isStateMessage, Config.stateLen]

/-- A payload is no state message exactly when it is below the seven bytes or has another tag or none (R194). -/
theorem isStateMessage_eq_false_iff (tagState : Byte) (p : List Byte) :
    isStateMessage tagState p = false ↔ p.length < 7 ∨ p.head? ≠ some tagState := by
  rw [← Bool.not_eq_true, isStateMessage, Bool.and_eq_true, beq_iff_eq, decide_eq_true_iff, not_and_or, not_le,
    or_comm]
  rfl

theorem padAfter_of_isStateMessage {tagState : Byte} {p : List Byte} (h : isStateMessage tagState p = true)
    (g : Gamepad) : padAfter tagState p g = payloadPad p :=
  if_pos h

theorem eventsOf_of_isStateMessage {tagState : Byte} {p : List Byte} (h : isStateMessage tagState p = true) :
    eventsOf tagState p = [.frame p, .state (payloadPad p)] :=
  if_pos h

theorem padAfter_of_not_isStateMessage {tagState : Byte} {p : List Byte} (h : isStateMessage tagState p = false)
    (g : Gamepad) : padAfter tagState p g = g :=
  if_neg (Bool.eq_false_iff.1 h)

theorem eventsOf_of_not_isStateMessage {tagState : Byte} {p : List Byte} (h : isStateMessage tagState p = false) :
    eventsOf tagState p = [.frame p] :=
  if_neg (Bool.eq_false_iff.1 h)

/-- Settles O45: `deliver_eq` gives the next state; whether the payload is a state message decides what `gp` and the
events are. -/
theorem deliverDecodesEmitsAndDispatches : Obligations.DeliverDecodesEmitsAndDispatches := by
  intro s raw
  refine ⟨congrArg Host.Outcome.next (deliver_eq raw s), ?stateMessage, fun h => ?otherPayload⟩
  case stateMessage =>
    intro lx ly rx ry b4 b5 rest hp
    have hmsg := isStateMessage_tag_cons s.params.tagState lx ly rx ry b4 b5 rest
    rw [hp]
    exact ⟨padAfter_of_isStateMessage hmsg s.gp, eventsOf_of_isStateMessage hmsg⟩
  case otherPayload =>
    have hmsg := (isStateMessage_eq_false_iff s.params.tagState (unstuff raw)).2 h
    exact ⟨padAfter_of_not_isStateMessage hmsg s.gp, eventsOf_of_not_isStateMessage hmsg⟩

end Sys2Proof.Machine

namespace Sys2Proof.Machine

open Config (esc sof eof)

/-! ### The decoder and the encoder (R86, R93) -/

/-- `i` is an instruction of the context `c`, and `front` is its encoding. -/
def IsRowAt (p : Params) (c : Context) (front : List Byte) (i : Instr) : Prop :=
  i.wf p = true ∧ i.context = c ∧ encode p i = front

theorem IsRowAt.with_rest {p : Params} {c : Context} {front bytes rest : List Byte} {i : Instr}
    (h : IsRowAt p c front i) (hb : front ++ rest = bytes) :
    i.wf p = true ∧ i.context = c ∧ encode p i ++ rest = bytes := by
  obtain ⟨hwf, hc, he⟩ := h
  exact ⟨hwf, hc, he ▸ hb⟩

/-- The row a mode and a byte select (R86, R110). -/
theorem decodeByte_isRowAt (p : Params) (m : Mode) (b : Byte) : IsRowAt p (.mode m) [b] (decodeByte p m b) := by
  cases m with
  | idle =>
    by_cases hb : b = sof
    · rw [hb]; exact ⟨rfl, rfl, rfl⟩
    · rw [show decodeByte p .idle b = .huntDrop b from if_neg hb]
      exact ⟨bne_iff_ne.2 hb, rfl, rfl⟩
  | frame =>
    cases hb : isReserved b
    · rw [decodeByte_frame_of_not_reserved p hb]
      exact ⟨by simp [Instr.wf, hb], rfl, rfl⟩
    · obtain rfl | rfl | rfl := (isReserved_iff b).1 hb
      · cases hr : p.sofResync
        · rw [show decodeByte p .frame sof = .frmSof by simp [decodeByte, hr]]
          exact ⟨by simp [Instr.wf, hr], rfl, rfl⟩
        · rw [show decodeByte p .frame sof = .frmSofResync by simp [decodeByte, hr]]
          exact ⟨hr, rfl, rfl⟩
      · exact ⟨rfl, rfl, rfl⟩
      · exact ⟨rfl, rfl, rfl⟩
  | esc => exact ⟨rfl, rfl, rfl⟩

/-- The transmit row a payload byte selects (R148). -/
theorem decodeTx_isRowAt (p : Params) (b : Byte) : IsRowAt p .tx [b] (decodeTx b) := by
  cases hb : isReserved b
  · obtain ⟨hesc, hsof, heof⟩ := (isReserved_eq_false_iff b).1 hb
    rw [show decodeTx b = .txLit b by simp [decodeTx, hsof, hesc, heof]]
    exact ⟨by simp [Instr.wf, hb], rfl, rfl⟩
  · obtain rfl | rfl | rfl := (isReserved_iff b).1 hb <;> exact ⟨rfl, rfl, rfl⟩

/-- The row of a button (R82, R83). -/
theorem decodeButton_isRowAt (p : Params) (k : Button) (b : Byte) :
    IsRowAt p (.button k) [b] (decodeButton k b) := by
  cases k <;> exact ⟨rfl, rfl, rfl⟩

/-- The direction row of a nibble, which encodes to the nibble zero-extended (R84, R93). -/
theorem decodeNibble_isRowAt (p : Params) (n : Nibble) : IsRowAt p .nibble [0#4 ++ n] (decodeNibble n) := by
  obtain ⟨n⟩ := n
  fin_cases n <;> exact ⟨rfl, rfl, rfl⟩

/-- The tag row of a payload (R192). -/
theorem decodeTag_isRowAt (p : Params) (payload : List Byte) : IsRowAt p .tag payload (decodeTag p payload) := by
  match payload with
  | [] => exact ⟨rfl, rfl, rfl⟩
  | t :: sub =>
    by_cases ht : t = p.tagState
    · rw [show decodeTag p (t :: sub) = .tagState sub from if_pos ht, ht]
      exact ⟨rfl, rfl, rfl⟩
    · rw [show decodeTag p (t :: sub) = .tagOther (t :: sub) from if_neg ht]
      exact ⟨by simpa [Instr.wf] using ht, rfl, rfl⟩

/-- The row of GpUpdate a sub-payload selects (R160). -/
theorem decodePad_isRowAt (p : Params) (sub : List Byte) : IsRowAt p .pad sub (decodePad sub) := by
  by_cases h : sub.length < 6
  · rw [decodePad_of_short h]
    exact ⟨decide_eq_true h, rfl, rfl⟩
  · match sub with
    | [] | [_] | [_, _] | [_, _, _] | [_, _, _, _] | [_, _, _, _, _] => simp at h
    | _ :: _ :: _ :: _ :: _ :: _ :: _ => exact ⟨rfl, rfl, rfl⟩

/-- A byte whose high nibble is zero is its low nibble zero-extended. -/
theorem zeroExtend_low_nibble {b : Byte} (h : b.extractLsb' 4 4 = 0#4) : 0#4 ++ b.extractLsb' 0 4 = b := by
  rw [← h]
  exact BitVec.extractLsb'_append_extractLsb'_eq_extractLsb' rfl |>.trans BitVec.extractLsb'_eq_self

/-- What a context of one byte reads. -/
theorem decodeOne_isRowAt {p : Params} {c : Context} {f : Byte → Instr} (hf : ∀ b, IsRowAt p c [b] (f b))
    {bytes rest : List Byte} {i : Instr} (h : decodeOne f bytes = .ok (i, rest)) :
    i.wf p = true ∧ i.context = c ∧ encode p i ++ rest = bytes := by
  match bytes with
  | [] => cases h
  | b :: r =>
    cases h
    exact (hf b).with_rest rfl

/-- What the context of a raw frame reads (R87). -/
theorem decodeUnit_isRow (p : Params) {bytes rest : List Byte} {i : Instr} (h : decodeUnit bytes = .ok (i, rest)) :
    i.wf p = true ∧ i.context = .unit ∧ encode p i ++ rest = bytes := by
  match bytes with
  | [] => cases h
  | b :: r =>
    by_cases hb : b = esc
    · subst hb
      match r with
      | [] => cases h; exact ⟨rfl, rfl, rfl⟩
      | _ :: _ => cases h; exact ⟨rfl, rfl, rfl⟩
    · rw [decodeUnit_lit r hb] at h
      cases h
      exact ⟨bne_iff_ne.2 hb, rfl, rfl⟩

/-- What the nibble context reads. -/
theorem decodeNibbleByte_isRow (p : Params) {bytes rest : List Byte} {i : Instr}
    (h : decodeNibbleByte bytes = .ok (i, rest)) :
    i.wf p = true ∧ i.context = .nibble ∧ encode p i ++ rest = bytes := by
  match bytes with
  | [] => cases h
  | b :: r =>
    by_cases hb : b.extractLsb' 4 4 = 0#4
    · rw [show decodeNibbleByte (b :: r) = .ok (decodeNibble (b.extractLsb' 0 4), r) from if_pos hb] at h
      cases h
      exact (decodeNibble_isRowAt p _).with_rest (by rw [zeroExtend_low_nibble hb]; rfl)
    · rw [show decodeNibbleByte (b :: r) = .error (.notNibble b) from if_neg hb] at h
      cases h

/-- What an operation invoked by name reads. -/
theorem decodeEvent_isRow (p : Params) (e : EventKind) {bytes rest : List Byte} {i : Instr}
    (h : decodeEvent e bytes = .ok (i, rest)) :
    i.wf p = true ∧ i.context = .event e ∧ encode p i ++ rest = bytes := by
  cases e with
  | step =>
    match bytes with
    | [] => cases h
    | _ :: _ => cases h; exact ⟨rfl, rfl, rfl⟩
  | reset | openSession | close => cases h; exact ⟨rfl, rfl, rfl⟩
  | submit | batchSubmit | decode | gpUpdate | deliver | frameWrap =>
    cases h; exact ⟨rfl, rfl, List.append_nil _⟩

/-- Settles O2: the round trip of each row, over all rows of the table. -/
theorem decodeOfEncodeGivesBack : Obligations.DecodeOfEncodeGivesBack := fun i =>
  match i with
  | .huntSof => Laws.RoundTrip.huntSof
  | .huntDrop b => Laws.RoundTrip.huntDrop b
  | .frmEsc => Laws.RoundTrip.frmEsc
  | .frmEof => Laws.RoundTrip.frmEof
  | .frmSof => Laws.RoundTrip.frmSof
  | .frmSofResync => Laws.RoundTrip.frmSofResync
  | .frmData b => Laws.RoundTrip.frmData b
  | .escAny b => Laws.RoundTrip.escAny b
  | .decPair x => Laws.RoundTrip.decPair x
  | .decTrunc => Laws.RoundTrip.decTrunc
  | .decLit b => Laws.RoundTrip.decLit b
  | .tagState sub => Laws.RoundTrip.tagState sub
  | .tagOther payload => Laws.RoundTrip.tagOther payload
  | .gpUpdate lx ly rx ry byte4 byte5 rest => Laws.RoundTrip.gpUpdate lx ly rx ry byte4 byte5 rest
  | .gpNop sub => Laws.RoundTrip.gpNop sub
  | .dirUp => Laws.RoundTrip.dirUp
  | .dirUpRight => Laws.RoundTrip.dirUpRight
  | .dirRight => Laws.RoundTrip.dirRight
  | .dirDownRight => Laws.RoundTrip.dirDownRight
  | .dirDown => Laws.RoundTrip.dirDown
  | .dirDownLeft => Laws.RoundTrip.dirDownLeft
  | .dirLeft => Laws.RoundTrip.dirLeft
  | .dirUpLeft => Laws.RoundTrip.dirUpLeft
  | .dirNone => Laws.RoundTrip.dirNone
  | .dirUnrecognized9 => Laws.RoundTrip.dirUnrecognized9
  | .dirUnrecognizedAB x => Laws.RoundTrip.dirUnrecognizedAB x
  | .dirUnrecognizedCF x => Laws.RoundTrip.dirUnrecognizedCF x
  | .btnX b => Laws.RoundTrip.btnX b
  | .btnA b => Laws.RoundTrip.btnA b
  | .btnB b => Laws.RoundTrip.btnB b
  | .btnY b => Laws.RoundTrip.btnY b
  | .btnLB b => Laws.RoundTrip.btnLB b
  | .btnRB b => Laws.RoundTrip.btnRB b
  | .btnLT b => Laws.RoundTrip.btnLT b
  | .btnRT b => Laws.RoundTrip.btnRT b
  | .btnBACK b => Laws.RoundTrip.btnBACK b
  | .btnSTART b => Laws.RoundTrip.btnSTART b
  | .btnL3 b => Laws.RoundTrip.btnL3 b
  | .btnR3 b => Laws.RoundTrip.btnR3 b
  | .txEsc7E => Laws.RoundTrip.txEsc7E
  | .txEsc7D => Laws.RoundTrip.txEsc7D
  | .txEsc7F => Laws.RoundTrip.txEsc7F
  | .txLit b => Laws.RoundTrip.txLit b
  | .stepByte b => Laws.RoundTrip.stepByte b
  | .submit chunk => Laws.RoundTrip.submit chunk
  | .batchSubmit chunk => Laws.RoundTrip.batchSubmit chunk
  | .decodeFrame f => Laws.RoundTrip.decodeFrame f
  | .gpUpdateCall sub => Laws.RoundTrip.gpUpdateCall sub
  | .deliver raw => Laws.RoundTrip.deliver raw
  | .reset => Laws.RoundTrip.reset
  | .openSession => Laws.RoundTrip.openSession
  | .close => Laws.RoundTrip.close
  | .frameWrap p => Laws.RoundTrip.frameWrap p

/-- Settles O3: context by context. -/
theorem encodeOfDecodeGivesBack : Obligations.EncodeOfDecodeGivesBack := by
  intro p c bytes rest i h
  cases c with
  | mode m => exact decodeOne_isRowAt (decodeByte_isRowAt p m) h
  | unit => exact decodeUnit_isRow p h
  | tag =>
    cases h
    exact (decodeTag_isRowAt p bytes).with_rest (List.append_nil _)
  | pad =>
    cases h
    exact (decodePad_isRowAt p bytes).with_rest (List.append_nil _)
  | nibble => exact decodeNibbleByte_isRow p h
  | button k => exact decodeOne_isRowAt (decodeButton_isRowAt p k) h
  | tx => exact decodeOne_isRowAt (decodeTx_isRowAt p) h
  | event e => exact decodeEvent_isRow p e h

/-- Settles O4: the selected row is one of the mode, and any other that encodes to the byte is read back by the
decoder as the selected one. -/
theorem everyByteSelectsExactlyOneRow : Obligations.EveryByteSelectsExactlyOneRow := by
  intro p m b
  obtain ⟨hwf, hc, he⟩ := decodeByte_isRowAt p m b
  refine ⟨⟨hc, hwf, he⟩, fun i hic hiwf hie => ?_⟩
  have hback : decode p i.context (encode p i) = .ok (i, []) := decodeOfEncodeGivesBack i p hiwf
  rw [hic, hie] at hback
  cases hback
  rfl

/-- Settles O1: the words are evaluated; TAG.STATE's word is the tag compared with itself. -/
theorem specWordsDecodeToTheirRows : Obligations.SpecWordsDecodeToTheirRows := fun _ =>
  ⟨rfl, rfl, rfl, rfl, rfl, rfl, rfl, rfl,
    congrArg (fun i => Except.ok (i, [])) (if_pos rfl), rfl, rfl, rfl, rfl, rfl, rfl⟩

end Sys2Proof.Machine

namespace Sys2Proof.Machine

open Config (esc sof eof)

/-! ### Decode and Escape as functions (R144 to R151) -/

@[simp] theorem unescape_unescape (x : Byte) : unescape (unescape x) = x := by
  rw [unescape, unescape, BitVec.xor_assoc, BitVec.xor_self, BitVec.xor_zero]

/-- The XOR inverts bit 5 and leaves the others (R147). -/
theorem getLsbD_unescape (x : Byte) {k : Nat} (hk : k < 8) :
    (unescape x).getLsbD k = (x.getLsbD k ^^ decide (k = 5)) := by
  have hmask : ∀ k < 8, Config.xorMask.getLsbD k = decide (k = 5) := by decide
  rw [unescape, BitVec.getLsbD_xor, hmask k hk]

/-- Without a common bit the XOR is the sum. -/
theorem xor_eq_add_of_and_eq_zero {w : Nat} {x y : BitVec w} (h : x &&& y = 0#w) : x ^^^ y = x + y := by
  rw [BitVec.add_eq_or_of_and_eq_zero x y h]
  ext k hk
  have hbit : (x[k] && y[k]) = false := by rw [← BitVec.getElem_and, h, BitVec.getElem_zero]
  rw [BitVec.getElem_xor, BitVec.getElem_or]
  revert hbit
  cases x[k] <;> simp

/-- With bit 5 clear the XOR is an addition without carry (R147). -/
theorem toNat_unescape_of_clear {x : Byte} (h : x.getLsbD 5 = false) : (unescape x).toNat = x.toNat + 32 := by
  have hand : x &&& Config.xorMask = 0#8 := by
    rw [show Config.xorMask = BitVec.twoPow 8 5 from rfl, BitVec.and_twoPow, h]
    rfl
  rw [unescape, xor_eq_add_of_and_eq_zero hand, BitVec.toNat_add_of_and_eq_zero hand]
  rfl

/-- Settles O31: the clause for bit 5 set is the one for bit 5 clear, read from the unescaped byte back. -/
theorem unescapeInvertsBitFive : Obligations.UnescapeInvertsBitFive := by
  intro x
  refine ⟨fun k hk => getLsbD_unescape x hk, unescape_unescape x, toNat_unescape_of_clear, fun h => ?set,
    fun h => ?reserved⟩
  case set =>
    have hclear : (unescape x).getLsbD 5 = false := by rw [getLsbD_unescape x (by decide), h]; rfl
    have hback := toNat_unescape_of_clear hclear
    rw [unescape_unescape] at hback
    omega
  case reserved => obtain rfl | rfl | rfl := (isReserved_iff x).1 h <;> rfl

/-- The length law of Decode (R145). -/
theorem length_unstuff (f : List Byte) :
    (unstuff f).length + pairCount f + (endsDangling f).toNat = f.length := by
  induction f using unitInduction with
  | nil => rfl
  | dangling => rfl
  | pair x r ih =>
    simp only [unstuff_pair, pairCount_pair, endsDangling_pair, List.length_cons]
    omega
  | lit b r hb ih =>
    simp only [unstuff_lit r hb, pairCount_lit r hb, endsDangling_lit r hb, List.length_cons]
    omega

/-- A body without an escaped pair and without a dangling escape holds no escape marker. -/
theorem esc_not_mem_iff (f : List Byte) : esc ∉ f ↔ pairCount f = 0 ∧ endsDangling f = false := by
  induction f using unitInduction with
  | nil => simp
  | dangling => simp
  | pair x r ih => simp
  | lit b r hb ih => simp [pairCount_lit r hb, endsDangling_lit r hb, ← ih, Ne.symm hb]

/-- Settles O30: with the law, the lengths are equal exactly when both other terms are zero. -/
theorem decodeLengthLaw : Obligations.DecodeLengthLaw := by
  intro f
  have hlaw := length_unstuff f
  refine ⟨hlaw, Iff.trans ?_ (esc_not_mem_iff f).symm⟩
  rw [← Bool.toNat_eq_zero]
  omega

/-- Decode takes back what Escape wrote (R150). -/
theorem unstuff_escape (p : List Byte) : unstuff (escape p) = p := by
  induction p with
  | nil => rfl
  | cons b p ih =>
    cases hb : isReserved b
    · rw [escape_cons_of_unreserved p hb, unstuff_lit _ ((isReserved_eq_false_iff b).1 hb).1, ih]
    · rw [escape_cons_of_reserved p hb, unstuff_pair, ih]
      exact congrArg (· :: p) (unescape_unescape b)

/-- Settles O35: an escaped byte is unescaped, any other is a literal. -/
theorem decodeUndoesEscape : Obligations.DecodeUndoesEscape := unstuff_escape

/-- A canonical pair is the Escape of the byte it decodes to (R151). -/
theorem isReserved_unescape {x : Byte} (hx : x = 0x5E#8 ∨ x = 0x5D#8 ∨ x = 0x5F#8) :
    isReserved (unescape x) = true := by
  obtain rfl | rfl | rfl := hx <;> rfl

/-- A canonical raw frame is the Escape of what it decodes to (R151). -/
theorem escape_unstuff {f : List Byte} (hsof : sof ∉ f) (heof : eof ∉ f) (hd : endsDangling f = false)
    (hc : pairsCanonical f = true) : escape (unstuff f) = f := by
  induction f using unitInduction with
  | nil => rfl
  | dangling => cases hd
  | pair x r ih =>
    obtain ⟨hx, hc⟩ : (x = 0x5E#8 ∨ x = 0x5D#8 ∨ x = 0x5F#8) ∧ pairsCanonical r = true := by
      simpa [or_assoc] using hc
    rw [unstuff_pair, escape_cons_of_reserved _ (isReserved_unescape hx),
      ih (fun h => hsof (by simp [h])) (fun h => heof (by simp [h])) hd hc]
    exact congrArg (esc :: · :: r) (unescape_unescape x)
  | lit b r hb ih =>
    rw [endsDangling_lit r hb] at hd
    rw [pairsCanonical_lit r hb] at hc
    obtain ⟨hbs, hsof⟩ := not_or.1 (List.mem_cons.not.1 hsof)
    obtain ⟨hbe, heof⟩ := not_or.1 (List.mem_cons.not.1 heof)
    have hres : isReserved b = false := (isReserved_eq_false_iff b).2 ⟨hb, Ne.symm hbs, Ne.symm hbe⟩
    rw [unstuff_lit r hb, escape_cons_of_unreserved _ hres, ih hsof heof hd hc]

/-- Settles O37: an escaped payload has the four properties, and a frame that has them is the Escape of its
decoding. -/
theorem canonicalFramesAreEscapes : Obligations.CanonicalFramesAreEscapes := by
  refine fun f => ⟨?_, fun ⟨hsof, heof, hd, hc⟩ => ⟨unstuff f, (escape_unstuff hsof heof hd hc).symm⟩⟩
  rintro ⟨p, rfl⟩
  exact ⟨fun h => (ne_sof_and_ne_eof_of_mem_escape h).1 rfl, fun h => (ne_sof_and_ne_eof_of_mem_escape h).2 rfl,
    endsDangling_escape p, pairsCanonical_escape p⟩

/-- Settles O34: the rows of the payload append its Escape between the two markers. -/
theorem frameWrapWritesTheFrame : Obligations.FrameWrapWritesTheFrame := fun s p =>
  congrArg (fun t : State => (.next (t.sendBytes [eof]) : Result)) (sendByte_fold p (s.setTx [sof]))

/-- Decode of a body that continues one without a pending escape. -/
theorem unstuff_append {f : List Byte} (g : List Byte) (hd : endsDangling f = false) :
    unstuff (f ++ g) = unstuff f ++ unstuff g := by
  induction f using unitInduction with
  | nil => rfl
  | dangling => cases hd
  | pair x r ih => simp only [List.cons_append, unstuff_pair, ih hd]
  | lit b r hb ih =>
    rw [endsDangling_lit r hb] at hd
    rw [List.cons_append, unstuff_lit _ hb, unstuff_lit _ hb, ih hd]
    rfl

/-- A byte a body does not hold begins none of its units. -/
theorem noLiteral_of_not_mem {v : Byte} {f : List Byte} (h : v ∉ f) : noLiteral v f = true := by
  induction f using unitInduction with
  | nil => rfl
  | dangling => rfl
  | pair x r ih => exact ih fun hr => h (by simp [hr])
  | lit b r hb ih =>
    obtain ⟨hbv, hr⟩ := not_or.1 (List.mem_cons.not.1 h)
    simp [noLiteral_lit v r hb, ih hr, Ne.symm hbv]

theorem noLiteral_sof_escape (p : List Byte) : noLiteral sof (escape p) = true :=
  noLiteral_of_not_mem fun h => (ne_sof_and_ne_eof_of_mem_escape h).1 rfl

theorem noLiteral_eof_escape (p : List Byte) : noLiteral eof (escape p) = true :=
  noLiteral_of_not_mem fun h => (ne_sof_and_ne_eof_of_mem_escape h).2 rfl

end Sys2Proof.Machine

namespace Sys2Proof.Machine

open Config (esc sof eof)

/-! ### STEP and SUBMIT of a wrapped payload (R110, R119, R149, R150) -/

/-- At rest in IDLE mode nothing is held (R22, R23). -/
theorem accAnchored_acc_of_idle {s : State} (h : s.AccAnchored) (hm : s.mode = .idle) : s.acc = [] := by
  rcases accAnchored_cases h with ⟨-, ha⟩ | ⟨hm', -⟩ | ⟨hm', -⟩
  · exact ha
  · cases hm.symm.trans hm'
  · cases hm.symm.trans hm'

/-- At rest in FRAME mode whole units without a literal end marker are held (R22, R23). -/
theorem accAnchored_acc_of_frame {s : State} (h : s.AccAnchored) (hm : s.mode = .frame) :
    ∃ f, s.acc = sof :: f ∧ noLiteral eof f = true ∧ endsDangling f = false := by
  rcases accAnchored_cases h with ⟨hm', -⟩ | ⟨-, hopen⟩ | ⟨hm', -⟩
  · cases hm.symm.trans hm'
  · exact hopen
  · cases hm.symm.trans hm'

/-- At rest in ESC mode the held units end in a dangling escape (R22, R23). -/
theorem accAnchored_acc_of_esc {s : State} (h : s.AccAnchored) (hm : s.mode = .esc) :
    ∃ f, s.acc = sof :: f ∧ noLiteral eof f = true ∧ endsDangling f = true := by
  rcases accAnchored_cases h with ⟨hm', -⟩ | ⟨hm', -⟩ | ⟨-, hopen⟩
  · cases hm.symm.trans hm'
  · cases hm.symm.trans hm'
  · exact hopen

/-- One more byte in a nonempty accumulator is one more byte of the body. -/
theorem accBody_setAcc_append {s : State} (b : Byte) (ha : s.acc ≠ []) :
    (s.setAcc (s.acc ++ [b])).accBody = s.accBody ++ [b] :=
  List.drop_append_of_le_length (List.length_pos_iff.2 ha)

/-- STEP runs the row that the mode and the byte select (R110). -/
theorem exec_decodeByte (b : Byte) (s : State) : exec (decodeByte s.params s.mode b) s = execStepByte b s := by
  cases hm : s.mode with
  | idle =>
    simp only [execStepByte, decodeByte, hm, apply_ite (exec · s)]
    rfl
  | frame =>
    simp only [execStepByte, decodeByte, hm, apply_ite (exec · s)]
    rfl
  | esc =>
    simp only [execStepByte, decodeByte, hm]
    rfl

/-- STEP in FRAME mode on a byte that is no marker (R113). -/
theorem execStepByte_frame_of_not_reserved {s : State} {b : Byte} (hm : s.mode = .frame)
    (hb : isReserved b = false) (ha : s.acc ≠ []) (hr : s.hasRoom = true) :
    execStepByte b s = .next (s.setAcc (s.acc ++ [b])) := by
  rw [← exec_decodeByte, hm, decodeByte_frame_of_not_reserved _ hb, exec_frmData_of_room hm hb ha hr]

/-- STEP in FRAME mode on the escape marker (R116). -/
theorem execStepByte_frame_esc {s : State} (hm : s.mode = .frame) (ha : s.acc ≠ []) (hr : s.hasRoom = true) :
    execStepByte esc s = .next ((s.setAcc (s.acc ++ [esc])).setMode .esc) := by
  rw [← exec_decodeByte, hm]
  exact exec_frmEsc_of_room hm ha hr

/-- STEP in FRAME mode on the end marker (R117). -/
theorem execStepByte_frame_eof {s : State} (hm : s.mode = .frame) :
    execStepByte eof s = .next (s.toIdle.deliver s.accBody) := by
  rw [← exec_decodeByte, hm]
  exact exec_frmEof_eq_deliver hm

/-- FRM.SOF where there is room (R114). -/
theorem exec_frmSof_of_room {s : State} (hm : s.mode = .frame) (hs : s.params.sofResync = false)
    (ha : s.acc ≠ []) (hr : s.hasRoom = true) : exec .frmSof s = .next (s.setAcc (s.acc ++ [sof])) :=
  (inContext_true ⟨hm, hs⟩ _).trans (accAppend_room sof ha hr)

/-- FRM.SOF.RESYNC where the accumulator can hold one byte (R115). -/
theorem exec_frmSofResync_of_canRestart {s : State} (hm : s.mode = .frame) (hs : s.params.sofResync = true)
    (hr : s.canRestart = true) : exec .frmSofResync s = .next (s.setAcc [sof]) :=
  (inContext_true ⟨hm, hs⟩ _).trans (if_pos hr)

theorem decodeByte_frame_sof_of_data {p : Params} (hs : p.sofResync = false) : decodeByte p .frame sof = .frmSof := by
  simp [decodeByte, hs]

theorem decodeByte_frame_sof_of_resync {p : Params} (hs : p.sofResync = true) :
    decodeByte p .frame sof = .frmSofResync := by
  simp [decodeByte, hs]

/-- STEP in FRAME mode on the start marker, SOF_RESYNC = 0 (R114). -/
theorem execStepByte_frame_sof_of_data {s : State} (hm : s.mode = .frame) (hs : s.params.sofResync = false)
    (ha : s.acc ≠ []) (hr : s.hasRoom = true) : execStepByte sof s = .next (s.setAcc (s.acc ++ [sof])) := by
  rw [← exec_decodeByte, hm, decodeByte_frame_sof_of_data hs, exec_frmSof_of_room hm hs ha hr]

/-- STEP in FRAME mode on the start marker, SOF_RESYNC = 1 (R115). -/
theorem execStepByte_frame_sof_of_resync {s : State} (hm : s.mode = .frame) (hs : s.params.sofResync = true)
    (hr : s.canRestart = true) : execStepByte sof s = .next (s.setAcc [sof]) := by
  rw [← exec_decodeByte, hm, decodeByte_frame_sof_of_resync hs, exec_frmSofResync_of_canRestart hm hs hr]

/-- STEP in ESC mode (R118). -/
theorem execStepByte_esc {s : State} (b : Byte) (hm : s.mode = .esc) (ha : s.acc ≠ []) (hr : s.hasRoom = true) :
    execStepByte b s = .next ((s.setAcc (s.acc ++ [b])).setMode .frame) := by
  rw [← exec_decodeByte, hm]
  exact exec_escAny_of_room b hm ha hr

theorem submitBytes_cons_of_next {s t : State} {b : Byte} (c : List Byte) (h : execStepByte b s = .next t) :
    submitBytes (b :: c) s = submitBytes c t := by
  rw [submitBytes, h, andThen_next]

theorem submitBytes_append_of_next {s t : State} {c : List Byte} (d : List Byte) (h : submitBytes c s = .next t) :
    submitBytes (c ++ d) s = submitBytes d t := by
  rw [submitBytes_append, h, andThen_next]

/-- The bytes `f` fit behind what the accumulator holds. -/
def State.Fits (s : State) (f : List Byte) : Prop := ∀ d ∈ s.params.accDepth, s.acc.length + f.length ≤ d

theorem State.Fits.hasRoom {s : State} {b : Byte} {f : List Byte} (h : s.Fits (b :: f)) : s.hasRoom = true :=
  hasRoom_iff.2 fun d hd => by
    have := h d hd
    rw [List.length_cons] at this
    omega

/-- Once the first byte is appended, the others still fit. -/
theorem State.Fits.tail {s : State} {b : Byte} {f : List Byte} (h : s.Fits (b :: f)) :
    (s.setAcc (s.acc ++ [b])).Fits f := fun d hd => by
  have := h d hd
  rw [List.length_cons] at this
  rw [State.setAcc_acc, List.length_append, List.length_singleton]
  omega

/-- In FRAME mode an escaped pair is appended as it is (R116, R118). -/
theorem submitBytes_pair {s : State} {x : Byte} {r : List Byte} (hm : s.mode = .frame) (ha : s.acc ≠ [])
    (hroom : s.Fits (esc :: x :: r)) :
    submitBytes (esc :: x :: r) s = submitBytes r (s.setAcc (s.acc ++ [esc] ++ [x])) := by
  have hroom' : ((s.setAcc (s.acc ++ [esc])).setMode .esc).Fits (x :: r) := hroom.tail
  have hclose := execStepByte_esc x rfl (by simp) hroom'.hasRoom
  rw [submitBytes_cons_of_next _ (execStepByte_frame_esc hm ha hroom.hasRoom), submitBytes_cons_of_next _ hclose]
  simp [State.setAcc, State.setMode, hm]

/-- In FRAME mode whole units without a literal end marker, and under SOF_RESYNC = 1 without a literal start marker,
are appended as they are. -/
theorem submitBytes_units {s : State} {f : List Byte} (hm : s.mode = .frame) (ha : s.acc ≠ []) (hroom : s.Fits f)
    (hd : endsDangling f = false) (heof : noLiteral eof f = true)
    (hsof : s.params.sofResync = true → noLiteral sof f = true) :
    submitBytes f s = .next (s.setAcc (s.acc ++ f)) := by
  induction f using unitInduction generalizing s with
  | nil => rw [List.append_nil]; rfl
  | dangling => cases hd
  | pair x r ih =>
    rw [submitBytes_pair hm ha hroom]
    refine (ih (s := s.setAcc (s.acc ++ [esc] ++ [x])) hm (by simp) hroom.tail.tail hd heof hsof).trans ?_
    simp [State.setAcc]
  | lit b r hb ih =>
    rw [endsDangling_lit r hb] at hd
    obtain ⟨hbe, heof⟩ : b ≠ eof ∧ noLiteral eof r = true := by simpa [noLiteral_lit eof r hb] using heof
    have hsof : s.params.sofResync = true → b ≠ sof ∧ noLiteral sof r = true := by
      simpa [noLiteral_lit sof r hb] using hsof
    have hstep : execStepByte b s = .next (s.setAcc (s.acc ++ [b])) := by
      by_cases hbs : b = sof
      · subst hbs
        have hs : s.params.sofResync = false := Bool.eq_false_iff.2 fun h => (hsof h).1 rfl
        exact execStepByte_frame_sof_of_data hm hs ha hroom.hasRoom
      · exact execStepByte_frame_of_not_reserved hm ((isReserved_eq_false_iff b).2 ⟨hb, hbs, hbe⟩) ha hroom.hasRoom
    rw [submitBytes_cons_of_next _ hstep]
    refine (ih (s := s.setAcc (s.acc ++ [b])) hm (by simp) hroom.tail hd heof fun h => (hsof h).2).trans ?_
    simp [State.setAcc]

/-- The rest of a frame, its whole units and the end marker: what was held and the units are delivered. -/
theorem submitBytes_units_eof {s : State} {a f : List Byte} (hm : s.mode = .frame) (ha : s.acc = sof :: a)
    (hroom : s.Fits f) (hd : endsDangling f = false) (heof : noLiteral eof f = true)
    (hsof : s.params.sofResync = true → noLiteral sof f = true) :
    submitBytes (f ++ [eof]) s = .next (s.toIdle.deliver (a ++ f)) := by
  have hunits := submitBytes_units hm (by simp [ha]) hroom hd heof hsof
  have heof : execStepByte eof (s.setAcc (s.acc ++ f)) = .next (s.toIdle.deliver (a ++ f)) := by
    rw [ha]
    exact execStepByte_frame_eof hm
  rw [submitBytes_append_of_next _ hunits, submitBytes_cons_of_next _ heof]
  rfl

/-- The start marker of a frame, in IDLE mode (R112). -/
theorem execStepByte_idle_sof_of_canRestart {s : State} (hm : s.mode = .idle) (hr : s.canRestart = true) :
    execStepByte sof s = .next ((s.setAcc [sof]).setMode .frame) :=
  (execStepByte_idle_sof hm).trans (exec_huntSof_of_canRestart hm hr)

/-- The rest of a wrapped payload, once its start marker has opened the frame: the payload is delivered. -/
theorem submitBytes_escape_eof {s : State} (p : List Byte) (hm : s.mode = .frame) (ha : s.acc = [sof])
    (hroom : s.Fits (escape p)) : submitBytes (escape p ++ [eof]) s = .next (s.toIdle.deliver (escape p)) :=
  submitBytes_units_eof hm ha hroom (endsDangling_escape p) (noLiteral_eof_escape p) fun _ => noLiteral_sof_escape p

/-- A wrapped payload submitted in IDLE mode is DELIVER of its Escape (R150). -/
theorem submitBytes_frameWrap {s : State} (p : List Byte) (hm : s.mode = .idle)
    (hroom : ∀ d ∈ s.params.accDepth, (escape p).length + 1 ≤ d) :
    submitBytes (frameWrap p) s = .next (s.toIdle.deliver (escape p)) := by
  have hr : s.canRestart = true := canRestart_iff.2 fun d hd => (Nat.le_add_left 1 _).trans (hroom d hd)
  rw [frameWrap, submitBytes_cons_of_next _ (execStepByte_idle_sof_of_canRestart hm hr)]
  exact submitBytes_escape_eof p rfl rfl fun d hd => (Nat.add_comm 1 _).trans_le (hroom d hd)

/-- Settles O36: the frame is DELIVER of the payload's Escape, and Decode undoes Escape. -/
theorem wrappedPayloadIsDelivered : Obligations.WrappedPayloadIsDelivered := by
  intro s p hm hroom
  rw [exec, execSubmit, submitBytes_frameWrap p hm hroom, deliver_eq, unstuff_escape]
  rfl

/-- Settles O57: with SOF_RESYNC = 0 the start marker is one more unit of the open frame; with SOF_RESYNC = 1 it
opens the frame of `p` anew. -/
theorem lostEndMarkerMergesOrDrops : Obligations.LostEndMarkerMergesOrDrops := by
  intro s a p hm ha hd hroom
  have hlen : (escape p).length + 1 = (sof :: escape p).length := rfl
  refine ⟨fun hs => ?merged, fun hs => ?dropped⟩
  case merged =>
    have hdel : submitBytes (sof :: escape p ++ [eof]) s = .next (s.toIdle.deliver (a ++ sof :: escape p)) :=
      submitBytes_units_eof hm ha hroom
        ((endsDangling_lit _ sof_ne_esc).trans (endsDangling_escape p))
        ((noLiteral_lit eof _ sof_ne_esc).trans (noLiteral_eof_escape p))
        (by simp [hs])
    have hpay : unstuff (a ++ sof :: escape p) = unstuff a ++ sof :: p := by
      rw [unstuff_append _ hd, unstuff_lit _ sof_ne_esc, unstuff_escape]
    rw [exec, execSubmit, show frameWrap p = sof :: escape p ++ [eof] from rfl, hdel, deliver_eq, hpay]
    rfl
  case dropped =>
    have hr : s.canRestart = true := canRestart_iff.2 fun d hd => by have := hroom d hd; omega
    have hfit : (s.setAcc [sof]).Fits (escape p) := fun d hd => by
      have := hroom d hd
      rw [ha, List.length_cons] at this
      rw [State.setAcc_acc, List.length_singleton]
      omega
    have hdel : submitBytes (frameWrap p) s = .next (s.toIdle.deliver (escape p)) :=
      (submitBytes_cons_of_next _ (execStepByte_frame_sof_of_resync hm hs hr)).trans
        (submitBytes_escape_eof p hm rfl hfit)
    rw [exec, execSubmit, hdel, deliver_eq, unstuff_escape]
    rfl

/-- After a frame of garbage, or none, the next wrapped payload is the one handed over. -/
theorem submitBytes_frameWrap_recovers {s t : State} {garbage : List (List Byte)} {c p : List Byte}
    (hc : submitBytes c s = .next t) (hm : t.mode = .idle) (hp : t.params = s.params)
    (hout : frameSink t.out = frameSink s.out ++ garbage)
    (hroom : ∀ d ∈ s.params.accDepth, (escape p).length + 1 ≤ d) :
    ∃ u, exec (.submit (c ++ frameWrap p)) s = .next u ∧
      u.acc = [] ∧ u.mode = .idle ∧ frameSink u.out = frameSink s.out ++ garbage ++ [p] := by
  refine ⟨t.toIdle.deliver (escape p), ?_, by simp, by simp, by simp [unstuff_escape, hout]⟩
  rw [exec, execSubmit, submitBytes_append_of_next _ hc]
  exact submitBytes_frameWrap p hm (hp ▸ hroom)

/-- Settles O56: in each mode the end marker closes what is open, and the wrapped payload follows in IDLE mode. -/
theorem blockResynchronises : Obligations.BlockResynchronises := by
  intro s x p hs hroom
  have hwrap : ∀ d ∈ s.params.accDepth, (escape p).length + 1 ≤ d := fun d hd => (hroom d hd).2
  have hr : s.hasRoom = true := hasRoom_iff.2 fun d hd => (hroom d hd).1
  cases hm : s.mode with
  | idle => exact submitBytes_frameWrap_recovers rfl hm rfl (List.append_nil _).symm hwrap
  | frame =>
    exact submitBytes_frameWrap_recovers (submitBytes_cons_of_next [] (execStepByte_frame_eof hm))
      (by simp) (by simp) (by simp) hwrap
  | esc =>
    obtain ⟨f, hacc, -⟩ := accAnchored_acc_of_esc hs hm
    have ha : s.acc ≠ [] := by simp [hacc]
    refine submitBytes_frameWrap_recovers (t := s.toIdle.deliver (s.accBody ++ [x])) ?_
      (by simp) (by simp) (by simp) hwrap
    rw [submitBytes_cons_of_next _ (execStepByte_esc x hm ha hr), ← accBody_setAcc_append x ha]
    exact submitBytes_cons_of_next [] (execStepByte_frame_eof rfl)

end Sys2Proof.Machine

namespace Sys2Proof.Machine

open Config (esc sof eof)

/-! ### What no operation does: the trace, the parameters, the inputs, the other tags (R33, R35, R57, R80) -/

/-- From `s` to `t` the trace only grows, and the parameters and the inputs still to come are the same. -/
def State.Extends (s t : State) : Prop := s.out <+: t.out ∧ t.params = s.params ∧ t.inputs = s.inputs

theorem State.Extends.refl (s : State) : s.Extends s := ⟨List.prefix_rfl, rfl, rfl⟩

theorem State.Extends.trans {s t u : State} (h : s.Extends t) (k : t.Extends u) : s.Extends u := by
  obtain ⟨hout, hparams, hinputs⟩ := h
  obtain ⟨kout, kparams, kinputs⟩ := k
  exact ⟨hout.trans kout, kparams.trans hparams, kinputs.trans hinputs⟩

/-- The next state of an answer, if it has one, extends `s`. -/
def AnswerExtends (s : State) (r : Result) : Prop := ∀ t, r = .next t → s.Extends t

/-- An answer that writes neither the trace nor the parameters nor the inputs. -/
theorem AnswerExtends.of_same {s t : State} (hout : t.out = s.out) (hparams : t.params = s.params)
    (hinputs : t.inputs = s.inputs) : AnswerExtends s (.next t) := by
  rintro _ ⟨⟩
  exact ⟨hout ▸ List.prefix_rfl, hparams, hinputs⟩

theorem AnswerExtends.inContext {s : State} {r : Result} (h : AnswerExtends s r) (c : Prop) [Decidable c] :
    AnswerExtends s (inContext c r) := fun t ht => h t (inContext_eq_next_iff.1 ht).2

theorem AnswerExtends.andThen {s : State} {r : Result} {f : State → Result} (h : AnswerExtends s r)
    (hf : ∀ t, AnswerExtends t (f t)) : AnswerExtends s (andThen r f) := fun u hu => by
  obtain ⟨t, ht, hu⟩ := andThen_eq_next_iff.1 hu
  exact (h t ht).trans (hf t u hu)

theorem AnswerExtends.setMode {s : State} {r : Result} (h : AnswerExtends s r) (m : Mode) :
    AnswerExtends s (Machine.andThen r fun t => .next (t.setMode m)) :=
  h.andThen fun _ => .of_same rfl rfl rfl

theorem accRestart_extends (s : State) : AnswerExtends s s.accRestart := fun t ht => by
  obtain ⟨-, rfl⟩ := accRestart_eq_next_iff.1 ht
  exact State.Extends.refl s

theorem accAppend_extends (b : Byte) (s : State) : AnswerExtends s (s.accAppend b) := fun t ht => by
  obtain ⟨-, -, rfl⟩ := accAppend_eq_next_iff.1 ht
  exact State.Extends.refl s

theorem deliver_extends (raw : List Byte) (s : State) : s.Extends (s.deliver raw) :=
  ⟨by simp, by simp, by simp⟩

theorem gpUpdate_extends (sub : List Byte) (s : State) : s.Extends (s.gpUpdate sub) := by
  rw [gpUpdate_eq 0#8]
  split
  · exact ⟨List.prefix_append _ _, rfl, rfl⟩
  · exact State.Extends.refl s

theorem execStepByte_extends (b : Byte) (s : State) : AnswerExtends s (execStepByte b s) := fun t ht => by
  rcases execStepByte_cases ht with ⟨-, -, rfl⟩ | ⟨-, -, -, rfl⟩ | ⟨-, -, -, -, rfl⟩ | ⟨-, -, rfl⟩ |
    ⟨-, -, -, -, rfl⟩ | ⟨-, -, -, -, -, -, rfl⟩ | ⟨-, -, -, rfl⟩
  case inr.inr.inr.inl => exact deliver_extends s.accBody s.toIdle
  all_goals exact State.Extends.refl _

theorem submitBytes_extends (c : List Byte) (s : State) : AnswerExtends s (submitBytes c s) := by
  induction c generalizing s with
  | nil => exact .of_same rfl rfl rfl
  | cons b c ih => exact (execStepByte_extends b s).andThen ih

theorem execBatchSubmit_extends (c : List Byte) (s : State) : AnswerExtends s (execBatchSubmit c s) := fun t ht => by
  rw [execBatchSubmit] at ht
  simp only [deliverAll_eq] at ht
  split at ht <;> cases ht
  exact ⟨List.prefix_append _ _, rfl, rfl⟩

theorem execDecodeFrame_extends (f : List Byte) (s : State) : AnswerExtends s (exec (.decodeFrame f) s) := by
  rw [exec_decodeFrame]
  exact .of_same rfl rfl rfl

theorem execFrameWrap_extends (p : List Byte) (s : State) : AnswerExtends s (exec (.frameWrap p) s) := by
  rw [frameWrapWritesTheFrame s p]
  exact .of_same rfl rfl rfl

theorem execOpenSession_extends (s : State) : AnswerExtends s (execOpenSession s) := by
  rw [execOpenSession]
  split <;> exact .of_same rfl rfl rfl

/-- No operation takes an event back, writes a parameter or takes an input. -/
theorem exec_extends (i : Instr) (s : State) : AnswerExtends s (exec i s) := by
  cases i
  case huntSof => exact ((accRestart_extends s).setMode .frame).inContext _
  case frmEsc => exact ((accAppend_extends esc s).setMode .esc).inContext _
  case escAny b => exact ((accAppend_extends b s).setMode .frame).inContext _
  case frmData b => exact (accAppend_extends b s).inContext _
  case frmSof => exact (accAppend_extends _ s).inContext _
  case frmSofResync => exact (accRestart_extends s).inContext _
  case frmEof =>
    refine AnswerExtends.inContext ?_ _
    rintro _ ⟨⟩
    exact deliver_extends s.accBody s.toIdle
  case huntDrop | decLit | tagOther | gpNop | txLit =>
    exact AnswerExtends.inContext (.of_same rfl rfl rfl) _
  case deliver raw =>
    rintro _ ⟨⟩
    exact deliver_extends raw s
  case tagState sub | gpUpdateCall sub =>
    rintro _ ⟨⟩
    exact gpUpdate_extends sub s
  case gpUpdate =>
    rintro _ ⟨⟩
    exact ⟨List.prefix_append _ _, rfl, rfl⟩
  case stepByte b => exact execStepByte_extends b s
  case submit c => exact submitBytes_extends c s
  case batchSubmit c => exact execBatchSubmit_extends c s
  case decodeFrame f => exact execDecodeFrame_extends f s
  case openSession => exact execOpenSession_extends s
  case frameWrap p => exact execFrameWrap_extends p s
  all_goals exact .of_same rfl rfl rfl

/-- Settles O53: every operation's answer extends the state it runs on. -/
theorem outputIsAppendOnly : Obligations.OutputIsAppendOnly := exec_extends

/-- The seven other tag parameters taken from `q`. -/
def State.withOtherTags (q : Params) (s : State) : State :=
  { s with params := { s.params with
      tagCfgUpdate := q.tagCfgUpdate
      tagCfgReport := q.tagCfgReport
      tagErrFifo := q.tagErrFifo
      tagErrPack := q.tagErrPack
      tagErrTransport := q.tagErrTransport
      tagErrInvalid := q.tagErrInvalid
      tagErrDisconnected := q.tagErrDisconnected } }

/-- Running the operation under the other tags of `q` is running it and giving them to the answer. -/
def IgnoresOtherTags (f : State → Result) : Prop :=
  ∀ (q : Params) (s : State), f (s.withOtherTags q) = andThen (f s) fun t => .next (t.withOtherTags q)

theorem IgnoresOtherTags.inContext {c : State → Prop} [∀ s, Decidable (c s)] {f : State → Result}
    (hc : ∀ q s, c (State.withOtherTags q s) = c s) (hf : IgnoresOtherTags f) :
    IgnoresOtherTags fun s => inContext (c s) (f s) := fun q s => by
  show Machine.inContext (c (s.withOtherTags q)) _ = Machine.andThen (Machine.inContext (c s) (f s)) _
  rw [inContext_andThen, ← hf q s]
  by_cases h : c s
  · rw [inContext_true h, inContext_true ((hc q s).symm ▸ h)]
  · rw [inContext_false h, inContext_false ((hc q s).symm ▸ h)]

theorem IgnoresOtherTags.andThen {f g : State → Result} (hf : IgnoresOtherTags f) (hg : IgnoresOtherTags g) :
    IgnoresOtherTags fun s => andThen (f s) g := fun q s => by
  show Machine.andThen (f (s.withOtherTags q)) g = Machine.andThen (Machine.andThen (f s) g) _
  rw [hf q s, andThen_assoc, andThen_assoc]
  exact congrArg (Machine.andThen (f s)) (funext fun t => hg q t)

theorem accRestart_ignoresOtherTags : IgnoresOtherTags State.accRestart := fun q s => by
  show (if s.canRestart = true then _ else _) = andThen (if s.canRestart = true then _ else _) _
  split <;> rfl

theorem accAppend_ignoresOtherTags (b : Byte) : IgnoresOtherTags (State.accAppend b) := fun q s => by
  show (if s.acc = [] then _ else if s.hasRoom = true then _ else _) =
    andThen (if s.acc = [] then _ else if s.hasRoom = true then _ else _) _
  split
  · rfl
  · split <;> rfl

theorem deliver_withOtherTags (raw : List Byte) (q : Params) (s : State) :
    (s.withOtherTags q).deliver raw = (s.deliver raw).withOtherTags q := by
  rw [deliver_eq, deliver_eq]
  rfl

theorem execHuntSof_ignoresOtherTags : IgnoresOtherTags execHuntSof :=
  (accRestart_ignoresOtherTags.andThen fun _ _ => rfl).inContext fun _ _ => rfl

theorem execHuntDrop_ignoresOtherTags (b : Byte) : IgnoresOtherTags (execHuntDrop b) :=
  IgnoresOtherTags.inContext (fun _ _ => rfl) fun _ _ => rfl

theorem execFrmEsc_ignoresOtherTags : IgnoresOtherTags execFrmEsc :=
  ((accAppend_ignoresOtherTags esc).andThen fun _ _ => rfl).inContext fun _ _ => rfl

theorem execFrmEof_ignoresOtherTags : IgnoresOtherTags execFrmEof :=
  IgnoresOtherTags.inContext (fun _ _ => rfl) fun q s =>
    congrArg Host.Outcome.next (deliver_withOtherTags s.accBody q s.toIdle)

theorem execFrmSof_ignoresOtherTags : IgnoresOtherTags execFrmSof :=
  (accAppend_ignoresOtherTags sof).inContext fun _ _ => rfl

theorem execFrmSofResync_ignoresOtherTags : IgnoresOtherTags execFrmSofResync :=
  accRestart_ignoresOtherTags.inContext fun _ _ => rfl

theorem execFrmData_ignoresOtherTags (b : Byte) : IgnoresOtherTags (execFrmData b) :=
  (accAppend_ignoresOtherTags b).inContext fun _ _ => rfl

theorem execEscAny_ignoresOtherTags (b : Byte) : IgnoresOtherTags (execEscAny b) :=
  ((accAppend_ignoresOtherTags b).andThen fun _ _ => rfl).inContext fun _ _ => rfl

theorem execStepByte_ignoresOtherTags (b : Byte) : IgnoresOtherTags (execStepByte b) := fun q s => by
  rw [execStepByte, execStepByte]
  show (match s.mode with | .idle => _ | .frame => _ | .esc => _) = _
  cases s.mode with
  | idle =>
    dsimp only
    split
    · exact execHuntSof_ignoresOtherTags q s
    · exact execHuntDrop_ignoresOtherTags b q s
  | frame =>
    dsimp only
    split
    · exact execFrmEsc_ignoresOtherTags q s
    split
    · exact execFrmEof_ignoresOtherTags q s
    split
    · show (if s.params.sofResync = true then _ else _) = _
      split
      · exact execFrmSofResync_ignoresOtherTags q s
      · exact execFrmSof_ignoresOtherTags q s
    · exact execFrmData_ignoresOtherTags b q s
  | esc => exact execEscAny_ignoresOtherTags b q s

theorem submitBytes_ignoresOtherTags (c : List Byte) : IgnoresOtherTags (submitBytes c) := by
  induction c with
  | nil => exact fun _ _ => rfl
  | cons b c ih => exact (execStepByte_ignoresOtherTags b).andThen ih

theorem execBatchSubmit_ignoresOtherTags (c : List Byte) : IgnoresOtherTags (execBatchSubmit c) := fun q s => by
  show (if s.hasRoomFor c = true then _ else _) = andThen (if s.hasRoomFor c = true then _ else _) _
  split
  · simp only [deliverAll_eq]
    rfl
  · rfl

theorem exec_decodeFrame_ignoresOtherTags (f : List Byte) : IgnoresOtherTags (exec (.decodeFrame f)) := fun q s => by
  rw [exec_decodeFrame, exec_decodeFrame]
  rfl

theorem exec_frameWrap_ignoresOtherTags (p : List Byte) : IgnoresOtherTags (exec (.frameWrap p)) := fun q s => by
  rw [frameWrapWritesTheFrame, frameWrapWritesTheFrame]
  rfl

theorem gpUpdate_withOtherTags (sub : List Byte) (q : Params) (s : State) :
    (s.withOtherTags q).gpUpdate sub = (s.gpUpdate sub).withOtherTags q := by
  rw [gpUpdate_eq 0#8, gpUpdate_eq 0#8]
  split <;> rfl

theorem execOpenSession_ignoresOtherTags : IgnoresOtherTags execOpenSession := fun q s => by
  show Host.Outcome.next (if s.params.gpResetOnOpen = true then _ else _) =
    andThen (.next (if s.params.gpResetOnOpen = true then _ else _)) _
  split <;> rfl

/-- No operation reads a tag but TAG_STATE (R80). -/
theorem exec_ignoresOtherTags (i : Instr) : IgnoresOtherTags (exec i) := by
  cases i
  case huntSof => exact execHuntSof_ignoresOtherTags
  case huntDrop b => exact execHuntDrop_ignoresOtherTags b
  case frmEsc => exact execFrmEsc_ignoresOtherTags
  case frmEof => exact execFrmEof_ignoresOtherTags
  case frmSof => exact execFrmSof_ignoresOtherTags
  case frmSofResync => exact execFrmSofResync_ignoresOtherTags
  case frmData b => exact execFrmData_ignoresOtherTags b
  case escAny b => exact execEscAny_ignoresOtherTags b
  case decLit | tagOther | gpNop | txLit => exact IgnoresOtherTags.inContext (fun _ _ => rfl) fun _ _ => rfl
  case tagState sub | gpUpdateCall sub =>
    exact fun q s => congrArg Host.Outcome.next (gpUpdate_withOtherTags sub q s)
  case stepByte b => exact execStepByte_ignoresOtherTags b
  case submit c => exact submitBytes_ignoresOtherTags c
  case batchSubmit c => exact execBatchSubmit_ignoresOtherTags c
  case decodeFrame f => exact exec_decodeFrame_ignoresOtherTags f
  case deliver raw => exact fun q s => congrArg Host.Outcome.next (deliver_withOtherTags raw q s)
  case openSession => exact execOpenSession_ignoresOtherTags
  case frameWrap p => exact exec_frameWrap_ignoresOtherTags p
  all_goals exact fun _ _ => rfl

/-- Parameters that agree in what the block reads differ in the other tags only. -/
theorem withOtherTags_eq {q : Params} {s : State} (htag : q.tagState = s.params.tagState)
    (hdepth : q.accDepth = s.params.accDepth) (haxis : q.axisNeutral = s.params.axisNeutral)
    (hresync : q.sofResync = s.params.sofResync) (hopen : q.gpResetOnOpen = s.params.gpResetOnOpen) :
    s.withOtherTags q = { s with params := q } := by
  simp only [State.withOtherTags, ← htag, ← hdepth, ← haxis, ← hresync, ← hopen]

/-- Settles O55: the operation runs the same under the other tags of `q`, and keeps the parameters it is given. -/
theorem otherTagsAreNeverRead : Obligations.OtherTagsAreNeverRead := by
  intro i s q htag hdepth haxis hresync hopen
  rw [← withOtherTags_eq htag hdepth haxis hresync hopen, exec_ignoresOtherTags i q s]
  cases ht : exec i s with
  | next t =>
    obtain ⟨-, hp, -⟩ := exec_extends i s t ht
    exact congrArg Host.Outcome.next (withOtherTags_eq (hp ▸ htag) (hp ▸ hdepth) (hp ▸ haxis) (hp ▸ hresync)
      (hp ▸ hopen))
  | fault e => rfl
  | refused e => rfl

end Sys2Proof.Machine

namespace Sys2Proof.Machine

open Config (esc sof eof)

/-! ### What one byte and one chunk keep (R110, R119, R120, R124, R127, R128) -/

/-- At rest an escape is pending in the body exactly when the mode says so (R23, R24). -/
theorem endsDangling_accBody {s : State} (h : s.AccAnchored) : endsDangling s.accBody = s.escapePending := by
  rcases accAnchored_cases h with ⟨hm, ha⟩ | ⟨hm, f, ha, -, hd⟩ | ⟨hm, f, ha, -, hd⟩
  · rw [State.accBody, State.escapePending, hm, ha]; rfl
  · rw [State.accBody, State.escapePending, hm, ha]; exact hd
  · rw [State.accBody, State.escapePending, hm, ha]; exact hd

/-- Only an end marker taken in FRAME mode produces anything, and then it is DELIVER of the open frame (R120). -/
theorem execStepByte_produces {s t : State} {b : Byte} (h : execStepByte b s = .next t) :
    (t.out = s.out ∧ t.gp = s.gp ∧ t.work = s.work) ∨
    (s.mode = .frame ∧ b = eof ∧ t = s.toIdle.deliver s.accBody) := by
  rcases execStepByte_cases h with ⟨-, -, rfl⟩ | ⟨-, -, -, rfl⟩ | ⟨-, -, -, -, rfl⟩ | hclose |
    ⟨-, -, -, -, rfl⟩ | ⟨-, -, -, -, -, -, rfl⟩ | ⟨-, -, -, rfl⟩
  case inr.inr.inr.inl => exact .inr hclose
  all_goals exact .inl ⟨rfl, rfl, rfl⟩

/-- Settles O17: the rows of the inversion of STEP, read in the order of the table. -/
theorem modeTransitionTable : Obligations.ModeTransitionTable := by
  intro s t b h
  constructor
  · rcases execStepByte_cases h with ⟨hm, hb, rfl⟩ | ⟨hm, rfl, -, rfl⟩ | ⟨hm, rfl, -, -, rfl⟩ | ⟨hm, rfl, rfl⟩ |
      ⟨hm, rfl, hs, -, rfl⟩ | ⟨hm, hesc, heof, hsof, -, -, rfl⟩ | ⟨hm, -, -, rfl⟩
    · simp only [hm]
      exact (if_neg hb).symm
    · simp only [hm]; rfl
    · simp only [hm]; rfl
    · simp only [hm, deliver_mode, deliver_acc]; rfl
    · simp only [hm]
      show _ = if sof = sof ∧ s.params.sofResync = true then _ else _
      exact (congrArg (·, [sof]) hm).trans (if_pos ⟨rfl, hs⟩).symm
    · have hdata : ¬ (b = sof ∧ s.params.sofResync = true) := fun ⟨hb, hs⟩ => by simp [hsof hb] at hs
      simp only [hm]
      refine (congrArg (·, s.acc ++ [b]) hm).trans ?_
      exact ((if_neg hesc).trans ((if_neg heof).trans (if_neg hdata))).symm
    · simp only [hm]; rfl
  · intro hno
    rcases execStepByte_produces h with hsame | ⟨hm, hb, -⟩
    · exact hsame
    · exact absurd ⟨hm, hb⟩ hno

/-- What an open frame is after one byte: held, or lost to a marker that closes or restarts it (R126). -/
theorem execStepByte_holds {s t : State} {b : Byte} (h : execStepByte b s = .next t) (hm : s.mode ≠ .idle) :
    s.acc <+: t.acc ∨ (b = eof ∧ s.mode = .frame) ∨ (b = sof ∧ s.mode = .frame ∧ s.params.sofResync = true) := by
  rcases execStepByte_cases h with ⟨hi, -, -⟩ | ⟨hi, -, -, -⟩ | ⟨-, -, -, -, rfl⟩ | ⟨hf, hb, -⟩ |
    ⟨hf, hb, hs, -, -⟩ | ⟨-, -, -, -, -, -, rfl⟩ | ⟨-, -, -, rfl⟩
  · exact absurd hi hm
  · exact absurd hi hm
  · exact .inl (List.prefix_append _ _)
  · exact .inr (.inl ⟨hb, hf⟩)
  · exact .inr (.inr ⟨hb, hf, hs⟩)
  · exact .inl (List.prefix_append _ _)
  · exact .inl (List.prefix_append _ _)

/-- Every byte keeps a body without a literal start marker under SOF_RESYNC = 1 (R124). -/
theorem execStepByte_resynced {s t : State} {b : Byte} (ha : s.AccAnchored) (hr : s.Resynced)
    (h : execStepByte b s = .next t) : t.Resynced := by
  have hd := endsDangling_accBody ha
  rcases execStepByte_cases h with ⟨-, -, rfl⟩ | ⟨-, -, -, rfl⟩ | ⟨-, -, hne, -, rfl⟩ | ⟨-, -, rfl⟩ |
    ⟨-, -, -, -, rfl⟩ | ⟨-, hesc, -, hsof, hne, -, rfl⟩ | ⟨hm, hne, -, rfl⟩
  · exact hr
  · exact fun _ => rfl
  · intro hs
    show noLiteral sof (s.setAcc (s.acc ++ [esc])).accBody = true
    simp [accBody_setAcc_append esc hne, noLiteral_append_byte, hr hs]
  · intro _
    simp [State.accBody]
  · exact fun _ => rfl
  · intro hs
    have hb : b ≠ sof := fun hb => Bool.false_ne_true ((hsof hb).symm.trans hs)
    simp [accBody_setAcc_append b hne, noLiteral_append_byte, hr hs, hb]
  · intro hs
    have hd : endsDangling s.accBody = true := by rw [hd, State.escapePending, hm]; rfl
    show noLiteral sof (s.setAcc (s.acc ++ [b])).accBody = true
    simp [accBody_setAcc_append b hne, noLiteral_append_byte, hr hs, hd]

/-- Every byte keeps the accumulator within ACC_DEPTH (R52, R128). -/
theorem execStepByte_withinDepth {s t : State} {b : Byte} (hw : s.WithinDepth) (h : execStepByte b s = .next t) :
    t.WithinDepth := by
  rcases execStepByte_cases h with ⟨-, -, rfl⟩ | ⟨-, -, hr, rfl⟩ | ⟨-, -, -, hr, rfl⟩ | ⟨-, -, rfl⟩ |
    ⟨-, -, -, hr, rfl⟩ | ⟨-, -, -, -, -, hr, rfl⟩ | ⟨-, -, hr, rfl⟩
  · exact hw
  · exact canRestart_iff.1 hr
  · exact fun d hd => by simpa using hasRoom_iff.1 hr d hd
  · exact fun d _ => by simp
  · exact canRestart_iff.1 hr
  · exact fun d hd => by simpa using hasRoom_iff.1 hr d hd
  · exact fun d hd => by simpa using hasRoom_iff.1 hr d hd

/-- What every byte keeps, every chunk keeps. -/
theorem submitBytes_keeps {P : State → Prop} (hP : ∀ s t b, P s → execStepByte b s = .next t → P t)
    {c : List Byte} {s t : State} (hs : P s) (h : submitBytes c s = .next t) : P t := by
  induction c generalizing s with
  | nil => cases h; exact hs
  | cons b c ih =>
    obtain ⟨u, hu, h⟩ := andThen_eq_next_iff.1 h
    exact ih (hP s u b hs hu) h

/-- A chunk completes at rest where the accumulator has room for all of it. -/
theorem submitBytes_completes {s : State} (h : s.AccAnchored) {c : List Byte} (hroom : s.Fits c) :
    ∃ t, submitBytes c s = .next t := by
  induction c generalizing s with
  | nil => exact ⟨s, rfl⟩
  | cons b c ih =>
    obtain ⟨t, ht⟩ := execStepByte_completes h b (hasRoom_iff.1 hroom.hasRoom)
    obtain ⟨hp, hl⟩ := execStepByte_length ht
    have hfit : t.Fits c := fun d hd => by
      have := hroom d (hp ▸ hd)
      rw [List.length_cons] at this
      omega
    rw [submitBytes_cons_of_next c ht]
    exact ih (execStepByte_anchored h ht) hfit

/-- Settles O19: completion by the room, rest by what a byte and so a chunk keeps. -/
theorem bytesAndChunksComplete : Obligations.BytesAndChunksComplete := by
  intro s h
  refine ⟨fun b hroom => ?byte, fun c hroom => ?chunk⟩
  case byte =>
    obtain ⟨t, ht⟩ := execStepByte_completes h b hroom
    exact ⟨t, ht, execStepByte_anchored h ht⟩
  case chunk =>
    obtain ⟨t, ht⟩ := submitBytes_completes h hroom
    exact ⟨t, ht, submitBytes_keeps (fun _ _ _ hu hb => execStepByte_anchored hu hb) h ht⟩

/-- Settles O25: what a chunk leaves open from IDLE is anchored and without a literal start marker under
SOF_RESYNC = 1, and in FRAME mode its body is whole units. -/
theorem deliveredFramesAreWholeUnits : Obligations.DeliveredFramesAreWholeUnits := by
  refine ⟨fun s t c hm ha h ht => ?_, fun s t b hs hr h =>
    ⟨execStepByte_anchored hs h, execStepByte_resynced hs hr h⟩⟩
  have hidle : s.AccAnchored ∧ s.Resynced :=
    ⟨accAnchored_idle hm ha, fun _ => by rw [State.accBody, ha]; rfl⟩
  obtain ⟨hanchored, hresynced⟩ : t.AccAnchored ∧ t.Resynced :=
    submitBytes_keeps (P := fun u => u.AccAnchored ∧ u.Resynced)
      (fun _ _ _ ⟨hu, hr⟩ hb => ⟨execStepByte_anchored hu hb, execStepByte_resynced hu hr hb⟩) hidle h
  obtain ⟨-, hparams, -⟩ := submitBytes_extends c s t h
  obtain ⟨raw, hacc, hlit, hd⟩ := accAnchored_acc_of_frame hanchored ht
  have hbody : t.accBody = raw := by rw [State.accBody, hacc]; rfl
  refine ⟨raw, hacc, ?_, ?_, ?_, hd, hlit, ?_, fun hs => ?_⟩
  · exact (exec_decodeByte eof t).symm.trans (by rw [ht]; rfl)
  · rw [exec_frmEof_eq_deliver ht, hbody]
    rfl
  · have hmode : modeOf t.acc = some t.mode := hanchored.2
    rwa [hacc, ht] at hmode
  · rw [unstuff_append_byte, hd]
    exact List.append_nil _
  · rw [← hbody]
    exact hresynced (hparams ▸ hs)

/-- Settles O26: every byte of the chunk is dropped (R127). -/
theorem garbageIsRejected : Obligations.GarbageIsRejected := by
  intro s c hm hc
  show submitBytes c s = .next s
  induction c with
  | nil => rfl
  | cons b c ih =>
    obtain ⟨hb, hc⟩ := not_or.1 (List.mem_cons.not.1 hc)
    rw [submitBytes_cons_of_next c (execStepByte_idle_of_ne_sof hm (Ne.symm hb)), ih hc]

/-- Chunks submitted one after another behind an answer are their concatenation behind it (R123). -/
theorem foldl_submit (chunks : List (List Byte)) (r : Result) :
    chunks.foldl (fun r c => andThen r (exec (.submit c))) r = andThen r (submitBytes chunks.flatten) := by
  induction chunks generalizing r with
  | nil => cases r <;> rfl
  | cons c chunks ih =>
    rw [List.foldl_cons, ih, andThen_assoc, List.flatten_cons]
    exact congrArg (andThen r) (funext fun s => (submitBytes_append c chunks.flatten s).symm)

/-- Settles O20: the chunks behind the answer that is the state itself. -/
theorem chunkBoundariesChangeNothing : Obligations.ChunkBoundariesChangeNothing := fun s chunks =>
  (foldl_submit chunks (.next s)).symm

end Sys2Proof.Machine

namespace Sys2Proof.Machine

open Config (esc sof eof)

/-! ### The step and the run over inputs (R13, R38, R57, R86) -/

/-- The operation an input selects, run on a state from which the input is already taken. -/
def runInput (x : Input) (s : State) : Result :=
  match fetch s x with
  | .ok i => exec i s
  | .error e => .refused e

/-- A step takes the next input away and runs what it selects (R57). -/
theorem step_of_inputs {s : State} {x : Input} {rest : List Input} (h : s.inputs = x :: rest) :
    step s = runInput x (s.setInputs rest) := by
  rw [step, h]
  cases x <;> rfl

/-- A byte runs STEP of it (R38, R110). -/
@[simp] theorem runInput_byte (b : Byte) (s : State) : runInput (.byte b) s = execStepByte b s := exec_decodeByte b s
@[simp] theorem runInput_reset (s : State) : runInput .reset s = .next s.toIdle.gpReset := rfl
@[simp] theorem runInput_openSession (s : State) :
    runInput .openSession s = .next (if s.params.gpResetOnOpen then s.toIdle.gpReset else s.toIdle) := rfl
@[simp] theorem runInput_close (s : State) : runInput .close s = .next s.toIdle := rfl

/-- A row applied directly runs when it takes all its bytes. -/
theorem runInput_direct_of_decode {s : State} {c : Context} {bytes : List Byte} {i : Instr}
    (h : decode s.params c bytes = .ok (i, [])) : runInput (.direct c bytes) s = exec i s := by
  simp only [runInput, fetch, h]

/-- Settles O5: `step_of_inputs` takes the input, and the fetch names the operation. -/
theorem stepRunsTheFetchedInstruction : Obligations.StepRunsTheFetchedInstruction := by
  intro s rest
  refine ⟨step_of_no_inputs, fun b h => step_of_inputs h, fun h => step_of_inputs h, fun h => step_of_inputs h,
    fun h => step_of_inputs h, fun c bytes i h hd => ?direct, fun c bytes i b left h hd => ?leftOver,
    fun c bytes e h hd => ?undecodable⟩
  case direct => exact (step_of_inputs h).trans (runInput_direct_of_decode hd)
  case leftOver =>
    rw [step_of_inputs h]
    simp only [runInput, fetch, State.setInputs_params, hd]
  case undecodable =>
    rw [step_of_inputs h]
    simp only [runInput, fetch, State.setInputs_params, hd]

/-- Settles O6: `exec_decodeByte`, read from STEP to the row. -/
theorem stepDispatchIsTheOperationMap : Obligations.StepDispatchIsTheOperationMap := fun s b =>
  (exec_decodeByte b s).symm

/-- An input placed in front of the others is the one the next step takes. -/
theorem step_setInputs_cons (x : Input) (s : State) : step (s.setInputs (x :: s.inputs)) = runInput x s :=
  step_of_inputs rfl

/-- The contexts a table word can stand in, and its bytes in the one that the mode reads. -/
theorem tableWord_cases {nbits w : Nat} {c : Context} {bytes : List Byte} (h : tableWord nbits w = some (c, bytes)) :
    (nbits = 8 ∧ c = .mode .idle ∧ ∃ b, bytes = [b]) ∨ (nbits ≠ 8 ∧ (c = .nibble ∨ c = .unit ∨ c = .pad)) := by
  unfold tableWord at h
  split at h <;> cases h
  · exact .inr ⟨by decide, .inl rfl⟩
  · exact .inl ⟨rfl, rfl, _, rfl⟩
  · exact .inr ⟨by decide, .inr (.inl rfl)⟩
  · exact .inr ⟨by decide, .inr (.inr rfl)⟩

/-- An instruction read from a table word is decoded from the word's bytes with none left over. -/
theorem decodeTableWord_eq_some {nbits w : Nat} {i : Instr} (h : decodeTableWord nbits w = some i) :
    ∃ c bytes, tableWord nbits w = some (c, bytes) ∧ decode Config.params c bytes = .ok (i, []) := by
  rw [decodeTableWord] at h
  split at h
  · cases h
  next c bytes hw =>
    split at h <;> cases h
    next hd => exact ⟨c, bytes, hw, hd⟩

/-- Settles O7: a word of 8 bits becomes a byte read in IDLE mode, any other a row applied directly; no context of a
table word reads the parameters. -/
theorem placedWordRunsNext : Obligations.PlacedWordRunsNext := by
  intro s nbits w i h
  obtain ⟨c, bytes, hw, hd⟩ := decodeTableWord_eq_some h
  rcases tableWord_cases hw with ⟨hn, rfl, b, rfl⟩ | ⟨hn, hc⟩
  · have hplace : s.withFetchWord nbits w = s.toIdle.setInputs (.byte b :: s.toIdle.inputs) := by
      rw [State.withFetchWord, placeWord, hw]
      rfl
    cases hd
    rw [hplace, if_pos hn]
    exact step_setInputs_cons (.byte b) s.toIdle
  · have hplace : s.withFetchWord nbits w = s.setInputs (.direct c bytes :: s.inputs) := by
      rw [State.withFetchWord, placeWord, hw]
      rcases hc with rfl | rfl | rfl <;> rfl
    have hparams : decode s.params c bytes = decode Config.params c bytes := by
      rcases hc with rfl | rfl | rfl <;> rfl
    rw [hplace, if_neg hn, step_setInputs_cons, runInput_direct_of_decode (hparams.trans hd)]

/-- The operations of several inputs, one after another. -/
def runInputs : List Input → State → Result
  | [], s => .next s
  | x :: rest, s => andThen (runInput x s) (runInputs rest)

theorem runInputs_append (xs ys : List Input) (s : State) :
    runInputs (xs ++ ys) s = andThen (runInputs xs s) (runInputs ys) := by
  induction xs generalizing s with
  | nil => rfl
  | cons x xs ih =>
    rw [List.cons_append, runInputs, runInputs, andThen_assoc]
    exact congrArg (andThen (runInput x s)) (funext ih)

/-- The operations of `Byte` inputs are SUBMIT of their bytes (R13, R119). -/
theorem runInputs_map_byte (c : List Byte) (s : State) : runInputs (c.map Input.byte) s = submitBytes c s := by
  induction c generalizing s with
  | nil => rfl
  | cons b c ih =>
    rw [List.map_cons, runInputs, submitBytes, runInput_byte]
    exact congrArg (andThen (execStepByte b s)) (funext ih)

/-- The operation of an input event neither reads nor writes the inputs still to come (R57). -/
theorem runInput_setInputs {x : Input} (hx : x.isEvent = true) (xs : List Input) (s : State) :
    runInput x (s.setInputs xs) = andThen (runInput x s) fun t => .next (t.setInputs xs) := by
  cases x with
  | byte b => simp only [runInput_byte, execStepByte_setInputs]
  | reset | close => rfl
  | openSession =>
    show Host.Outcome.next (if s.params.gpResetOnOpen = true then _ else _) =
      andThen (.next (if s.params.gpResetOnOpen = true then _ else _)) _
    split <;> rfl
  | direct => cases hx

/-- Several steps of the machine, its state and its answer under the model's own names. -/
def runSteps (k : Nat) (s : State) : Result := Host.Core.run Sys2Proof.core k s

theorem runSteps_succ (k : Nat) (s : State) : runSteps (k + 1) s = andThen (step s) (runSteps k) := by
  simp only [runSteps, Host.Core.run]
  generalize hr : Sys2Proof.core.step s = r
  rw [show step s = r from hr]
  cases r <;> rfl

/-- As many steps as there are events in front of the inputs run their operations one after another. -/
theorem runSteps_inputs {xs : List Input} (hx : ∀ x ∈ xs, x.isEvent = true) (rest : List Input) (s : State) :
    runSteps xs.length (s.setInputs (xs ++ rest)) = runInputs xs (s.setInputs rest) := by
  induction xs generalizing s with
  | nil => rfl
  | cons x xs ih =>
    obtain ⟨hx, hxs⟩ := List.forall_mem_cons.1 hx
    have hstep : step (s.setInputs (x :: (xs ++ rest))) = runInput x (s.setInputs (xs ++ rest)) := step_of_inputs rfl
    rw [List.length_cons, runSteps_succ, List.cons_append, hstep, runInputs, runInput_setInputs hx,
      runInput_setInputs hx, andThen_assoc, andThen_assoc]
    exact congrArg (andThen (runInput x s)) (funext fun t => ih hxs t)

/-- Settles O21: the events are bytes, and their operations are SUBMIT. -/
theorem byteEventsRunAsOneChunk : Obligations.ByteEventsRunAsOneChunk := by
  intro s c rest
  have hbyte : ∀ x ∈ c.map Input.byte, x.isEvent = true := by simp [Input.isEvent]
  have hrun := runSteps_inputs hbyte rest s
  rw [List.length_map, runInputs_map_byte] at hrun
  exact hrun

/-! ### The invariant (R22, R24, R31, R52, R124, R195) -/

/-- The reset values of `gp` are those of a sub-payload, so its decoded fields are from its raw registers (R31,
R41). -/
theorem Gamepad.neutral_decoded (axis : Byte) : (Gamepad.neutral axis).Decoded :=
  unpack_decoded axis axis axis axis 0x08#8 0x00#8

/-- A delivered payload leaves `gp` with its decoded fields from its raw registers (R31). -/
theorem padAfter_decoded {g : Gamepad} (h : g.Decoded) (tagState : Byte) (p : List Byte) :
    (padAfter tagState p g).Decoded := by
  rw [padAfter]
  split
  · exact unpack_decoded _ _ _ _ _ _
  · exact h

/-- A delivery appends one group of events (R195). -/
theorem deliver_outGrouped {s : State} (h : s.OutGrouped) (raw : List Byte) : (s.deliver raw).OutGrouped := by
  rw [State.OutGrouped, deliver_out, deliver_params, frameSink_events, List.flatMap_append, ← h,
    List.flatMap_singleton]

theorem State.Inv.setInputs {s : State} (h : s.Inv) {xs : List Input} (hx : ∀ x ∈ xs, x.isEvent = true) :
    (s.setInputs xs).Inv :=
  { h with onlyEvents := hx }

theorem State.Inv.toIdle {s : State} (h : s.Inv) : s.toIdle.Inv :=
  { h with
    accAnchored := accAnchored_idle rfl rfl
    withinDepth := fun d _ => Nat.zero_le d
    resynced := fun _ => rfl }

theorem State.Inv.gpReset {s : State} (h : s.Inv) : s.gpReset.Inv :=
  { h with decoded := Gamepad.neutral_decoded _ }

/-- STEP keeps the invariant. -/
theorem execStepByte_inv {s t : State} {b : Byte} (h : s.Inv) (ht : execStepByte b s = .next t) : t.Inv := by
  obtain ⟨-, hparams, hinputs⟩ := execStepByte_extends b s t ht
  have hevents : ∀ x ∈ t.inputs, x.isEvent = true := hinputs ▸ h.onlyEvents
  rcases execStepByte_produces ht with ⟨hout, hgp, hwork⟩ | ⟨-, -, rfl⟩
  · exact {
      accAnchored := execStepByte_anchored h.accAnchored ht
      decoded := hgp ▸ h.decoded
      withinDepth := execStepByte_withinDepth h.withinDepth ht
      resynced := execStepByte_resynced h.accAnchored h.resynced ht
      outGrouped := by
        have hgrouped := h.outGrouped
        rwa [State.OutGrouped, ← hout, ← hparams] at hgrouped
      workEmpty := hwork.trans h.workEmpty
      onlyEvents := hevents }
  · exact {
      accAnchored := execStepByte_anchored h.accAnchored ht
      decoded := by
        rw [deliver_gp]
        exact padAfter_decoded h.decoded _ _
      withinDepth := execStepByte_withinDepth h.withinDepth ht
      resynced := execStepByte_resynced h.accAnchored h.resynced ht
      outGrouped := deliver_outGrouped h.toIdle.outGrouped _
      workEmpty := deliver_work _ _
      onlyEvents := hevents }

/-- The operation of every input event keeps the invariant. -/
theorem runInput_inv {s t : State} {x : Input} (h : s.Inv) (hx : x.isEvent = true) (ht : runInput x s = .next t) :
    t.Inv := by
  cases x with
  | byte b => exact execStepByte_inv h (runInput_byte b s ▸ ht)
  | reset => cases ht; exact h.toIdle.gpReset
  | openSession =>
    rw [runInput_openSession] at ht
    cases ht
    split
    · exact h.toIdle.gpReset
    · exact h.toIdle
  | close => cases ht; exact h.toIdle
  | direct => cases hx

/-- Settles O49: nothing is held, nothing has been produced, and the reset values of `gp` decode to themselves. -/
theorem resetMeetsTheInvariant : Obligations.ResetMeetsTheInvariant where
  accAnchored := accAnchored_idle rfl rfl
  decoded := Gamepad.neutral_decoded _
  withinDepth := fun d _ => Nat.zero_le d
  resynced := fun _ => rfl
  outGrouped := rfl
  workEmpty := rfl
  onlyEvents := fun _ hx => nomatch hx

/-- Settles O50: a step waits, or runs the operation of an input event, which keeps the invariant. -/
theorem everyStepKeepsTheInvariant : Obligations.EveryStepKeepsTheInvariant := by
  intro s t h ht
  cases hi : s.inputs with
  | nil =>
    rw [step_of_no_inputs hi] at ht
    cases ht
    exact h
  | cons x rest =>
    obtain ⟨hx, hrest⟩ := List.forall_mem_cons.1 (hi ▸ h.onlyEvents)
    rw [step_of_inputs hi] at ht
    exact runInput_inv (h.setInputs hrest) hx ht

/-! ### Progress and the only stop (R128, R210) -/

/-- An answer that is refused, if it is, for the overflow of the accumulator. -/
def OnlyOverflows (r : Result) : Prop := ∀ e, r = .refused e → e = .accOverflow

theorem OnlyOverflows.next (s : State) : OnlyOverflows (.next s) := fun _ h => nomatch h

theorem OnlyOverflows.setMode {r : Result} (h : OnlyOverflows r) (m : Mode) :
    OnlyOverflows (andThen r fun t => .next (t.setMode m)) := fun e he => by
  cases r with
  | next s => cases he
  | fault f => cases he
  | refused e' => exact h e he

theorem accRestart_onlyOverflows (s : State) : OnlyOverflows s.accRestart := fun e he => by
  rw [State.accRestart] at he
  split at he <;> cases he
  rfl

theorem accAppend_onlyOverflows {s : State} (b : Byte) (ha : s.acc ≠ []) : OnlyOverflows (s.accAppend b) :=
  fun e he => by
    rw [State.accAppend, if_neg ha] at he
    split at he <;> cases he
    rfl

/-- At rest a byte is refused for an overflow only (R110, R128). -/
theorem execStepByte_onlyOverflows {s : State} (h : s.AccAnchored) (b : Byte) : OnlyOverflows (execStepByte b s) := by
  rcases accAnchored_cases h with ⟨hm, -⟩ | ⟨hm, f, ha, -⟩ | ⟨hm, f, ha, -⟩
  · by_cases hb : b = sof
    · rw [hb, execStepByte_idle_sof hm, execHuntSof, inContext_true hm]
      exact (accRestart_onlyOverflows s).setMode .frame
    · rw [execStepByte_idle_of_ne_sof hm hb]
      exact .next s
  · have hne : s.acc ≠ [] := by simp [ha]
    rw [← exec_decodeByte, hm]
    cases hb : isReserved b
    · rw [decodeByte_frame_of_not_reserved _ hb, exec, execFrmData, inContext_true ⟨hm, hb⟩]
      exact accAppend_onlyOverflows b hne
    · obtain rfl | rfl | rfl := (isReserved_iff b).1 hb
      · cases hs : s.params.sofResync
        · rw [decodeByte_frame_sof_of_data hs, exec, execFrmSof, inContext_true ⟨hm, hs⟩]
          exact accAppend_onlyOverflows sof hne
        · rw [decodeByte_frame_sof_of_resync hs, exec, execFrmSofResync, inContext_true ⟨hm, hs⟩]
          exact accRestart_onlyOverflows s
      · show OnlyOverflows (execFrmEsc s)
        rw [execFrmEsc, inContext_true hm]
        exact (accAppend_onlyOverflows esc hne).setMode .esc
      · show OnlyOverflows (execFrmEof s)
        rw [execFrmEof, inContext_true hm]
        exact .next _
  · rw [← exec_decodeByte, hm]
    show OnlyOverflows (execEscAny b s)
    rw [execEscAny, inContext_true hm]
    exact (accAppend_onlyOverflows b (by simp [ha])).setMode .frame

/-- The operation of an input event answers a next state where the accumulator has room for a byte. -/
theorem runInput_completes {s : State} {x : Input} (h : s.AccAnchored) (hx : x.isEvent = true)
    (hroom : ∀ d ∈ s.params.accDepth, s.acc.length < d) : ∃ t, runInput x s = .next t := by
  cases x with
  | byte b => rw [runInput_byte]; exact execStepByte_completes h b hroom
  | reset | openSession | close => exact ⟨_, rfl⟩
  | direct => cases hx

/-- Settles O51: without a depth there is always room. -/
theorem unboundedMachineNeverStops : Obligations.UnboundedMachineNeverStops := by
  intro s h hdepth
  cases hi : s.inputs with
  | nil => exact ⟨s, step_of_no_inputs hi⟩
  | cons x rest =>
    obtain ⟨hx, hrest⟩ := List.forall_mem_cons.1 (hi ▸ h.onlyEvents)
    rw [step_of_inputs hi]
    exact runInput_completes (h.setInputs hrest).accAnchored hx (by simp [hdepth])

/-- Settles O52: a byte that is refused finds no room (`execStepByte_completes`), and every other event completes. -/
theorem overflowIsTheOnlyStop : Obligations.OverflowIsTheOnlyStop := by
  intro s h
  refine ⟨fun e => (nomatch e), fun e he => ?_⟩
  cases hi : s.inputs with
  | nil =>
    rw [step_of_no_inputs hi] at he
    cases he
  | cons x rest =>
    obtain ⟨hx, hrest⟩ := List.forall_mem_cons.1 (hi ▸ h.onlyEvents)
    have hs := (h.setInputs hrest).accAnchored
    rw [step_of_inputs hi] at he
    cases x with
    | byte b =>
      rw [runInput_byte] at he
      refine ⟨execStepByte_onlyOverflows hs b e he, ?_⟩
      by_contra hno
      obtain ⟨t, ht⟩ := execStepByte_completes hs b fun d hd => by
        by_contra hfull
        exact hno ⟨d, b, rest, hd, not_lt.1 hfull, rfl⟩
      cases he.symm.trans ht
    | reset | openSession | close => cases he
    | direct => cases hx

/-! ### Who writes the accumulator and `gp` (R32, R126) -/

/-- Settles O27: a byte holds the open frame or is one of the two markers; the other events are named. -/
theorem partialFrameIsHeld : Obligations.PartialFrameIsHeld := by
  intro s t hev ht hm
  cases hi : s.inputs with
  | nil =>
    rw [step_of_no_inputs hi] at ht
    cases ht
    exact .inl List.prefix_rfl
  | cons x rest =>
    obtain ⟨hx, -⟩ := List.forall_mem_cons.1 (hi ▸ hev)
    rw [step_of_inputs hi] at ht
    cases x with
    | byte b =>
      rw [runInput_byte] at ht
      rcases execStepByte_holds ht hm with hheld | ⟨rfl, hf⟩ | ⟨rfl, hf, hs⟩
      · exact .inl hheld
      · exact .inr ⟨_, rest, rfl, .inl ⟨rfl, hf⟩⟩
      · exact .inr ⟨_, rest, rfl, .inr (.inl ⟨rfl, hf, hs⟩)⟩
    | reset => exact .inr ⟨_, rest, rfl, .inr (.inr (.inl rfl))⟩
    | openSession => exact .inr ⟨_, rest, rfl, .inr (.inr (.inr (.inl rfl)))⟩
    | close => exact .inr ⟨_, rest, rfl, .inr (.inr (.inr (.inr rfl)))⟩
    | direct => cases hx

/-- A byte that changes `gp` is an end marker that closes the frame of a state message (R32). -/
theorem execStepByte_gp_ne {s t : State} {b : Byte} (ht : execStepByte b s = .next t) (hgp : t.gp ≠ s.gp) :
    s.mode = .frame ∧ b = eof ∧ isStateMessage s.params.tagState (unstuff s.accBody) = true ∧
      t.gp = payloadPad (unstuff s.accBody) := by
  rcases execStepByte_produces ht with ⟨-, hsame, -⟩ | ⟨hm, hb, rfl⟩
  · exact absurd hsame hgp
  · have hpad : (s.toIdle.deliver s.accBody).gp = padAfter s.params.tagState (unstuff s.accBody) s.gp :=
      deliver_gp s.accBody s.toIdle
    cases hmsg : isStateMessage s.params.tagState (unstuff s.accBody)
    · exact absurd (hpad.trans (padAfter_of_not_isStateMessage hmsg _)) hgp
    · exact ⟨hm, hb, rfl, hpad.trans (padAfter_of_isStateMessage hmsg _)⟩

/-- Settles O54: the events one by one. -/
theorem gamepadIsWrittenOnlyByStateMessages : Obligations.GamepadIsWrittenOnlyByStateMessages := by
  intro s t hev ht hgp
  cases hi : s.inputs with
  | nil =>
    rw [step_of_no_inputs hi] at ht
    cases ht
    exact absurd rfl hgp
  | cons x rest =>
    obtain ⟨hx, -⟩ := List.forall_mem_cons.1 (hi ▸ hev)
    rw [step_of_inputs hi] at ht
    refine ⟨x, rest, rfl, ?_⟩
    cases x with
    | byte b =>
      rw [runInput_byte] at ht
      obtain ⟨hm, rfl, hmsg, hpad⟩ := execStepByte_gp_ne ht hgp
      exact .inr (.inr ⟨rfl, hm, hmsg, hpad⟩)
    | reset => exact .inl rfl
    | openSession =>
      cases hopen : s.params.gpResetOnOpen
      · rw [runInput_openSession, State.setInputs_params, hopen] at ht
        cases ht
        exact absurd rfl hgp
      · exact .inr (.inl ⟨rfl, rfl⟩)
    | close =>
      cases ht
      exact absurd rfl hgp
    | direct => cases hx

/-! ### Sessions, simultaneous inputs, several machines (R65, R220, R243) -/

/-- Every input of a history of the grammar is an event of R38. -/
theorem isEvent_of_sessionFrom {h : List Input} {phase : SessionPhase} (hh : sessionFrom phase h = true) :
    ∀ x ∈ h, x.isEvent = true := by
  induction h generalizing phase with
  | nil => exact fun _ hx => nomatch hx
  | cons x rest ih =>
    rw [sessionFrom] at hh
    split at hh
    next q hq =>
      have hx : x.isEvent = true := by
        cases x with
        | byte | reset | openSession | close => rfl
        | direct => cases phase <;> cases hq
      exact List.forall_mem_cons.2 ⟨hx, ih hh⟩
    · cases hh

/-- The operations of events extend the state they start from. -/
theorem runInput_extends (x : Input) (s : State) : AnswerExtends s (runInput x s) := fun t ht => by
  rw [runInput] at ht
  split at ht
  next i _ => exact exec_extends i s t ht
  · cases ht

/-- With an unbounded accumulator the operations of events run to their end and keep the invariant. -/
theorem runInputs_completes {s : State} {xs : List Input} (h : s.Inv) (hdepth : s.params.accDepth = none)
    (hx : ∀ x ∈ xs, x.isEvent = true) :
    ∃ t, runInputs xs s = .next t ∧ t.Inv ∧ t.inputs = s.inputs := by
  induction xs generalizing s with
  | nil => exact ⟨s, rfl, h, rfl⟩
  | cons x xs ih =>
    obtain ⟨hx, hxs⟩ := List.forall_mem_cons.1 hx
    obtain ⟨u, hu⟩ := runInput_completes h.accAnchored hx (by simp [hdepth])
    obtain ⟨-, hparams, hinputs⟩ := runInput_extends x s u hu
    obtain ⟨t, ht, hinv, hsame⟩ := ih (runInput_inv h hx hu) (hparams ▸ hdepth) hxs
    exact ⟨t, by rw [runInputs, hu, andThen_next, ht], hinv, hsame.trans hinputs⟩

/-- What a run leaves whose last input is Close (R198). -/
theorem runInputs_close_last {s t : State} {xs : List Input} (h : runInputs xs s = .next t)
    (hlast : xs.getLast? = some .close) : t.acc = [] ∧ t.mode = .idle := by
  obtain ⟨ys, rfl⟩ := List.getLast?_eq_some_iff.1 hlast
  rw [runInputs_append] at h
  obtain ⟨u, -, hu⟩ := andThen_eq_next_iff.1 h
  cases hu
  exact ⟨rfl, rfl⟩

/-- Settles O58: the history is a list of events, and the run of the machine is the run of their operations. -/
theorem sessionsRunToTheirEnd : Obligations.SessionsRunToTheirEnd := by
  intro s h hinv hdepth hh
  have hx := isEvent_of_sessionFrom hh
  obtain ⟨t, ht, htinv, hinputs⟩ :=
    runInputs_completes (s := s.setInputs []) (hinv.setInputs fun _ hx => nomatch hx) hdepth hx
  have hrun := runSteps_inputs hx [] s
  rw [List.append_nil] at hrun
  exact ⟨t, hrun.trans ht, htinv, hinputs, runInputs_close_last ht⟩

/-- An input presented when its pin is asserted runs then. -/
theorem runInputs_ite (pin : Bool) (x : Input) (s : State) :
    runInputs (if pin then [x] else []) s = if pin then runInput x s else .next s := by
  cases pin
  · rfl
  · show andThen (runInput x s) .next = runInput x s
    cases runInput x s <;> rfl

/-- The byte on the pins runs STEP (R40). -/
theorem runInputs_rxData (rxData : Option Byte) (s : State) :
    runInputs (rxData.map Input.byte).toList s =
      match rxData with
        | none => .next s
        | some b => exec (.stepByte b) s := by
  cases rxData with
  | none => rfl
  | some b =>
    show andThen (runInput (.byte b) s) .next = execStepByte b s
    rw [runInput_byte]
    cases execStepByte b s <;> rfl

theorem ite_sublist_singleton (pin : Bool) (x : Input) : (if pin then [x] else []).Sublist [x] := by
  cases pin
  · exact List.nil_sublist _
  · exact List.Sublist.refl _

/-- The pins present their inputs in the order Reset, Close, Open, Byte (R220). -/
theorem pins_inputs_sublist (pins : InPins) :
    pins.inputs.Sublist ([.reset, .close, .openSession] ++ pins.rxData.toList.map Input.byte) := by
  have hcontrol := ((ite_sublist_singleton pins.rst .reset).append (ite_sublist_singleton pins.close .close)).append
    (ite_sublist_singleton pins.openPin .openSession)
  refine hcontrol.append ?_
  cases pins.rxData <;> exact List.Sublist.refl _

/-- The pins present input events only. -/
theorem isEvent_of_mem_pins {pins : InPins} {x : Input} (hx : x ∈ pins.inputs) : x.isEvent = true := by
  have hmem := (pins_inputs_sublist pins).subset hx
  simp only [List.cons_append, List.nil_append, List.mem_cons, List.mem_map] at hmem
  obtain rfl | rfl | rfl | ⟨b, -, rfl⟩ := hmem <;> rfl

/-- The inputs on the pins run one after another, each asserted one as an operation of its own (R220). -/
theorem runInputs_pins (pins : InPins) (s : State) :
    runInputs pins.inputs s =
      andThen
        (andThen
          (andThen (if pins.rst then runInput .reset s else .next s)
            fun t => if pins.close then runInput .close t else .next t)
          fun t => if pins.openPin then runInput .openSession t else .next t)
        fun t => runInputs (pins.rxData.map Input.byte).toList t := by
  simp only [InPins.inputs, runInputs_append, ← runInputs_ite]

/-- Settles O59: the order and the members are read off the pins' list, and its operations run one after another. -/
theorem simultaneousInputsAreOrdered : Obligations.SimultaneousInputsAreOrdered := by
  intro s pins
  refine ⟨rfl, pins_inputs_sublist pins, ?reset, ?close, ?openSession, fun b => ?byte,
    fun x => isEvent_of_mem_pins, fun hi => ?run, fun b hi => ?closeFirst⟩
  case reset => simp [InPins.inputs]
  case close => simp [InPins.inputs]
  case openSession => simp [InPins.inputs]
  case byte => simp [InPins.inputs]
  case run =>
    have hpresent : s.present pins = s.setInputs (pins.inputs ++ []) := by
      rw [State.present, hi, List.append_nil]
      rfl
    have hkeep : s.setInputs [] = s := by rw [← hi]; rfl
    have hrun := runSteps_inputs (xs := pins.inputs) (fun x => isEvent_of_mem_pins) [] s
    rw [← hpresent, hkeep, runInputs_pins] at hrun
    refine hrun.trans (congrArg _ (funext fun t => ?_))
    exact (runInputs_rxData pins.rxData t).trans (by cases pins.rxData <;> rfl)
  case closeFirst =>
    have hinputs : (s.present ⟨false, true, false, some b⟩).inputs = [.close, .byte b] := congrArg (· ++ _) hi
    exact step_of_inputs hinputs

/-- Settles O60: the step of one machine is written to its place in the list. -/
theorem instancesShareNothing : Obligations.InstancesShareNothing := by
  intro system k
  refine ⟨?length, fun j hj => ?others, fun s t hs ht => ?stepped⟩
  case length =>
    rw [stepInstance]
    split
    · rfl
    · split
      · exact List.length_set
      · rfl
      · rfl
  case others =>
    rw [stepInstance]
    split
    · rfl
    · split
      · exact List.getElem?_set_ne (Ne.symm hj)
      · rfl
      · rfl
  case stepped =>
    rw [stepInstance, hs]
    simp only [ht]
    exact List.getElem?_set_self (List.getElem?_eq_some_iff.1 hs).1

end Sys2Proof.Machine

namespace Sys2Proof.Machine

open Config (esc sof eof)

/-! ### The rows with their refusals (R93, R114, R115, R128) -/

/-- Settles O11: the row of the configuration, in its context. -/
theorem startMarkerInsideFrame : Obligations.StartMarkerInsideFrame := fun _ hm =>
  ⟨fun hs ha hd => ⟨decodeByte_frame_sof_of_data hs, exec_frmSof_of_room hm hs ha (hasRoom_iff.2 hd)⟩,
    fun hs hd => ⟨decodeByte_frame_sof_of_resync hs, exec_frmSofResync_of_canRestart hm hs (canRestart_iff.2 hd)⟩⟩

/-- AccRestart not performed (R128). -/
theorem accRestart_full {s : State} (h : s.canRestart = false) : s.accRestart = .refused .accOverflow :=
  if_neg (Bool.eq_false_iff.1 h)

/-- Settles O15: each row reaches its accumulator primitive, which has no room. -/
theorem overflowIsRefused : Obligations.OverflowIsRefused := by
  intro s d hd
  have hfull : d ≤ s.acc.length → s.hasRoom = false := fun h => by
    simpa [State.hasRoom, hd] using h
  have hzero : d = 0 → s.canRestart = false := fun h => by simp [State.canRestart, hd, h]
  refine ⟨fun ha hl hm => ⟨fun b hb => ?data, ?esc, fun hs => ?sof⟩, fun ha hl hm b => ?any, fun h0 hm => ?hunt,
    fun h0 hm hs => ?resync⟩
  case data => rw [exec, execFrmData, inContext_true ⟨hm, hb⟩, accAppend_full b ha (hfull hl)]
  case esc => rw [exec, execFrmEsc, inContext_true hm, accAppend_full esc ha (hfull hl), andThen_refused]
  case sof => rw [exec, execFrmSof, inContext_true ⟨hm, hs⟩, accAppend_full sof ha (hfull hl)]
  case any => rw [exec, execEscAny, inContext_true hm, accAppend_full b ha (hfull hl), andThen_refused]
  case hunt => rw [exec, execHuntSof, inContext_true hm, accRestart_full (hzero h0), andThen_refused]
  case resync => rw [exec, execFrmSofResync, inContext_true ⟨hm, hs⟩, accRestart_full (hzero h0)]

/-- Settles O16: in each clause the row's condition fails. -/
theorem rowsOutsideTheirContextAreRefused : Obligations.RowsOutsideTheirContextAreRefused := by
  intro s b
  refine ⟨fun hm => ⟨inContext_false hm _, inContext_false (fun h => hm h.1) _⟩,
    fun hm => ⟨inContext_false hm _, inContext_false hm _, inContext_false (fun h => hm h.1) _,
      inContext_false (fun h => hm h.1) _, inContext_false (fun h => hm h.1) _⟩,
    fun hm => inContext_false hm _,
    fun hs => inContext_false (fun h => Bool.false_ne_true (h.2.symm.trans hs)) _,
    fun hs => inContext_false (fun h => Bool.false_ne_true (hs.symm.trans h.2)) _,
    inContext_false (fun h => h.2 rfl) _,
    fun hb => ⟨inContext_false (fun h => Bool.false_ne_true (h.2.symm.trans hb)) _,
      inContext_false (fun h => Bool.false_ne_true (h.symm.trans hb)) _⟩,
    rfl,
    fun sub => inContext_false (not_not_intro rfl) _,
    fun sub hl => inContext_false (not_lt.2 hl) _⟩

/-! ### GP.UPDATE's lanes, the tag rows, the control operations (R162, R172, R192, R196 to R198) -/

/-- Button rows run one after another write their buttons one after another. -/
theorem foldl_exec_decodeButton (rows : List (Button × Byte)) (s : State) :
    (rows.map fun row => decodeButton row.1 row.2).foldl (fun r i => andThen r (exec i)) (.next s) =
      .next (s.setGp (rows.foldl (fun g row => g.setButton row.1 (row.2.getLsbD (buttonBit row.1))) s.gp)) := by
  induction rows generalizing s with
  | nil => rfl
  | cons row rows ih =>
    rw [List.map_cons, List.foldl_cons, andThen_next, exec_decodeButton, ih]
    rfl

/-- The button rows of GP.UPDATE, each with the byte that carries it (R166, R167). -/
def gpUpdateButtons (byte4 byte5 : Byte) : List (Button × Byte) :=
  [(.X, byte4), (.A, byte4), (.B, byte4), (.Y, byte4), (.LB, byte5), (.RB, byte5), (.LT, byte5), (.RT, byte5),
    (.BACK, byte5), (.START, byte5), (.L3, byte5), (.R3, byte5)]

/-- Settles O44: the direction row and the button rows write every field that a decoded register file computes from
its raw registers. -/
theorem gamepadUpdateIsItsLanes : Obligations.GamepadUpdateIsItsLanes := by
  intro s lx ly rx ry b4 b5 rest
  obtain ⟨hupdate, -⟩ := gamepadUpdateWritesEveryField s lx ly rx ry b4 b5 rest
  rw [hupdate, List.foldl_cons, andThen_next, exec_decodeNibble]
  have hrows : [.btnX b4, .btnA b4, .btnB b4, .btnY b4, .btnLB b5, .btnRB b5, .btnLT b5, .btnRT b5, .btnBACK b5,
      .btnSTART b5, .btnL3 b5, .btnR3 b5] = (gpUpdateButtons b4 b5).map fun row => decodeButton row.1 row.2 := rfl
  rw [hrows, foldl_exec_decodeButton]
  rfl

/-- Settles O46: the decoder compares the tag, and GpUpdate decides by the length of what follows it. -/
theorem tagRowsDispatchThePayload : Obligations.TagRowsDispatchThePayload := by
  intro s sub payload
  refine ⟨if_pos rfl, rfl, fun hl => congrArg Host.Outcome.next (gpUpdate_short s hl), fun hl => ?_,
    fun hp => ⟨?_, inContext_true hp _⟩⟩
  · rw [exec, execTagState, gpUpdate_eq s.params.tagState, if_pos hl]
    rfl
  · match payload with
    | [] => rfl
    | t :: r => exact if_neg fun ht => hp (congrArg some ht)

/-- Settles O47: OPEN by its parameter. -/
theorem controlOperations : Obligations.ControlOperations := by
  intro s
  refine ⟨rfl, rfl, fun h => ?_, fun h => ?_⟩
  · rw [exec, execOpenSession, if_pos h]
    rfl
  · rw [exec, execOpenSession, if_neg (Bool.eq_false_iff.1 h)]
    rfl

/-- Settles O48: RESET writes `gp` from the parameters alone. -/
theorem resetStateIsNeutral : Obligations.ResetStateIsNeutral :=
  ⟨⟨rfl, rfl, rfl, rfl, rfl, rfl⟩, fun s hp =>
    ⟨s.toIdle.gpReset, rfl, rfl, rfl, congrArg (fun p => Gamepad.neutral (Params.axisNeutral p)) hp, rfl⟩⟩

/-! ### The batch procedure (R121, R122) -/

theorem fromSof_of_not_mem {a : List Byte} (h : sof ∉ a) : fromSof a = [] := by
  induction a with
  | nil => rfl
  | cons b r ih =>
    obtain ⟨hb, hr⟩ := not_or.1 (List.mem_cons.not.1 h)
    rw [fromSof, if_neg (Ne.symm hb), ih hr]

theorem fromSof_append_sof {pre : List Byte} (h : sof ∉ pre) (body : List Byte) :
    fromSof (pre ++ sof :: body) = sof :: body := by
  induction pre with
  | nil => exact if_pos rfl
  | cons b r ih =>
    obtain ⟨hb, hr⟩ := not_or.1 (List.mem_cons.not.1 h)
    rw [List.cons_append, fromSof, if_neg (Ne.symm hb), ih hr]

/-- The pass that finds no start marker (R121). -/
theorem batchSubmit_of_no_sof {a : List Byte} (h : sof ∉ a) : batchSubmit [] a = ([], []) := by
  rw [batchSubmit_pass, fromSof_of_not_mem h]

/-- The pass that finds no end marker (R121). -/
theorem batchSubmit_of_incomplete {pre body : List Byte} {i : Nat} (h : sof ∉ pre)
    (hs : scan (sof :: body) = .incomplete i) : batchSubmit [] (pre ++ sof :: body) = (sof :: body, []) := by
  rw [batchSubmit_pass, fromSof_append_sof h]
  simp only [hs]

/-- The pass that takes a frame out (R121). -/
theorem batchSubmit_of_endAt {pre body : List Byte} {i : Nat} (h : sof ∉ pre)
    (hs : scan (sof :: body) = .endAt i) :
    batchSubmit [] (pre ++ sof :: body) =
      ((batchSubmit [] (body.drop i)).1, body.take (i - 1) :: (batchSubmit [] (body.drop i)).2) := by
  rw [batchSubmit_pass, fromSof_append_sof h]
  simp only [hs]

/-- Bytes in the form of the accumulator have a mode (R22, R24). -/
theorem modeOf_of_wf {a : List Byte} (h : Memory.wf a = true) : ∃ m, modeOf a = some m := by
  rw [Memory.wf, Bool.or_eq_true, Bool.and_eq_true] at h
  rcases h with h | ⟨-, h⟩
  · exact ⟨.idle, by rw [beq_iff_eq.1 h, modeOf_nil]⟩
  · exact Option.isSome_iff_exists.1 h

theorem frameSink_append (out out' : List OutEvent) : frameSink (out ++ out') = frameSink out ++ frameSink out' :=
  List.filterMap_append

/-- The payloads of several groups of events (R195). -/
theorem frameSink_flatMap_eventsOf (tagState : Byte) (fs : List (List Byte)) :
    frameSink (fs.flatMap fun f => eventsOf tagState (unstuff f)) = fs.map unstuff := by
  induction fs with
  | nil => rfl
  | cons f fs ih =>
    rw [List.flatMap_cons, frameSink_append, ih]
    exact congrArg (· ++ fs.map unstuff) (frameSink_events tagState (unstuff f) [])

/-- The answer of the batch procedure stored: the accumulator, its mode, and the frames delivered (R121). -/
def State.takeBatch (r : List Byte × List (List Byte)) (s : State) : State :=
  ((s.setAcc r.1).setMode ((modeOf r.1).getD .frame)).deliverAll r.2

theorem exec_batchSubmit_of_room {s : State} {c : List Byte} (h : s.Fits c) :
    exec (.batchSubmit c) s = .next (s.takeBatch (batchSubmit s.acc c)) :=
  if_pos (hasRoomFor_iff.2 h)

/-- Settles O22: the three kinds of pass, and the delivery of the frames as one write. -/
theorem batchSubmitTrimsScansAndRepeats : Obligations.BatchSubmitTrimsScansAndRepeats := by
  refine ⟨fun a c => ⟨fun h => batchSubmit_of_no_sof h, fun pre body hac hpre => ?pass⟩, fun s c hroom => ?operation⟩
  case pass =>
    rw [batchSubmit_join, hac]
    exact ⟨fun i hs => batchSubmit_of_incomplete hpre hs, fun i hs => batchSubmit_of_endAt hpre hs⟩
  case operation =>
    obtain ⟨m, hm⟩ := modeOf_of_wf (batchSubmit_wf (s.acc ++ c))
    rw [← batchSubmit_join] at hm
    refine ⟨m, hm, ?_, frameSink_flatMap_eventsOf _ _⟩
    rw [exec_batchSubmit_of_room hroom, State.takeBatch, deliverAll_eq, hm]
    rfl

/-- Settles O24: the condition of the operation is that accumulator and chunk fit (`hasRoomFor_iff`). -/
theorem batchSubmitStops : Obligations.BatchSubmitStops := by
  rintro s c ⟨d, hd, hl⟩
  exact if_neg fun h => not_le.2 hl (hasRoomFor_iff.1 h d hd)

/-- At rest the batch procedure keeps the accumulator it is given. -/
theorem batchSubmit_of_anchored {s : State} (h : s.AccAnchored) : batchSubmit s.acc [] = (s.acc, []) := by
  rw [batchSubmit_join, List.append_nil]
  have hopen {f : List Byte} (hl : noLiteral eof f = true) : batchSubmit [] (sof :: f) = (sof :: f, []) :=
    batchSubmit_of_incomplete (pre := []) List.not_mem_nil (scanFrom_open 1 hl)
  rcases accAnchored_cases h with ⟨-, ha⟩ | ⟨-, f, ha, hl, -⟩ | ⟨-, f, ha, hl, -⟩
  · rw [ha, batchSubmit_of_no_sof List.not_mem_nil]
  · rw [ha, hopen hl]
  · rw [ha, hopen hl]

/-- The scan finds the first end marker behind whole units without one. -/
theorem scanFrom_append_eof {f : List Byte} (i : Nat) (c : List Byte) (hd : endsDangling f = false)
    (hl : noLiteral eof f = true) : scanFrom i (f ++ eof :: c) = .endAt (i + f.length) := by
  induction f using unitInduction generalizing i with
  | nil => exact scanFrom_eof i c
  | dangling => cases hd
  | pair x r ih =>
    simp only [List.cons_append, scanFrom_pair, ih (i + 2) hd hl, List.length_cons]
    congr 1
    omega
  | lit b r hb ih =>
    rw [endsDangling_lit r hb] at hd
    obtain ⟨hbe, hl⟩ : b ≠ eof ∧ noLiteral eof r = true := by simpa [noLiteral_lit eof r hb] using hl
    simp only [List.cons_append, scanFrom_lit i _ hb hbe, ih (i + 1) hd hl, List.length_cons]
    congr 1
    omega

/-- The batch procedure takes out the frame that an end marker closes. -/
theorem batchSubmit_closed {f : List Byte} (c : List Byte) (hd : endsDangling f = false) (hl : noLiteral eof f = true) :
    batchSubmit (sof :: f) (eof :: c) = ((batchSubmit [] c).1, f :: (batchSubmit [] c).2) := by
  have hs : scan (sof :: (f ++ eof :: c)) = .endAt (1 + f.length) := scanFrom_append_eof 1 c hd hl
  have hdrop : (f ++ eof :: c).drop (1 + f.length) = c := by rw [Nat.add_comm, ← List.drop_drop, List.drop_left]; rfl
  have htake : (f ++ eof :: c).take (1 + f.length - 1) = f := by rw [Nat.add_sub_cancel_left, List.take_left]
  have hpass := batchSubmit_of_endAt (pre := []) List.not_mem_nil hs
  rw [hdrop, htake] at hpass
  exact hpass

/-- The batch procedure drops a byte before the first start marker. -/
theorem batchSubmit_cons_of_ne_sof {b : Byte} (c : List Byte) (hb : b ≠ sof) :
    batchSubmit [] (b :: c) = batchSubmit [] c := by
  rw [batchSubmit_pass, batchSubmit_pass, show fromSof (b :: c) = fromSof c from if_neg hb]

/-- A frame delivered before the answer of the batch procedure is stored is the first of its frames. -/
theorem takeBatch_deliver (f a : List Byte) (fs : List (List Byte)) (s : State) :
    (s.toIdle.deliver f).takeBatch (a, fs) = s.takeBatch (a, f :: fs) := by
  show State.deliverAll fs _ = State.deliverAll fs (State.deliver f _)
  rw [deliver_eq, deliver_eq]
  rfl

/-- With SOF_RESYNC = 0 a byte taken by STEP may as well be the first byte of the batch procedure's chunk. -/
theorem takeBatch_cons {s t : State} {b : Byte} (c : List Byte) (h : s.AccAnchored)
    (hs : s.params.sofResync = false) (ht : execStepByte b s = .next t) :
    t.takeBatch (batchSubmit t.acc c) = s.takeBatch (batchSubmit s.acc (b :: c)) := by
  have happend : batchSubmit (s.acc ++ [b]) c = batchSubmit s.acc (b :: c) := by
    rw [batchSubmit_join, batchSubmit_join s.acc, List.append_assoc]
    rfl
  rcases execStepByte_cases ht with ⟨hm, hb, rfl⟩ | ⟨hm, rfl, -, rfl⟩ | ⟨-, rfl, -, -, rfl⟩ | ⟨hm, rfl, rfl⟩ |
    ⟨-, -, hs', -, -⟩ | ⟨-, -, -, -, -, -, rfl⟩ | ⟨-, -, -, rfl⟩
  · rw [accAnchored_acc_of_idle h hm, batchSubmit_cons_of_ne_sof c hb]
  · rw [accAnchored_acc_of_idle h hm]
    rfl
  · rw [← happend]
    rfl
  · obtain ⟨f, ha, hl, hd⟩ := accAnchored_acc_of_frame h hm
    rw [deliver_acc, takeBatch_deliver, State.accBody, ha, batchSubmit_closed c hd hl]
    rfl
  · cases hs.symm.trans hs'
  · rw [← happend]
    rfl
  · rw [← happend]
    rfl

/-- Settles O23: by induction over the chunk, each byte by `takeBatch_cons`. -/
theorem batchEqualsPerByte : Obligations.BatchEqualsPerByte := by
  intro s c h hs hdepth
  have hfits {u : State} (hu : u.params.accDepth = none) (c : List Byte) : u.Fits c := by simp [State.Fits, hu]
  refine ⟨s.takeBatch (batchSubmit s.acc c), ?_, exec_batchSubmit_of_room (hfits hdepth c)⟩
  show submitBytes c s = _
  induction c generalizing s with
  | nil =>
    have hmode : modeOf s.acc = some s.mode := h.2
    rw [batchSubmit_of_anchored h, State.takeBatch, hmode]
    rfl
  | cons b c ih =>
    obtain ⟨t, ht⟩ := execStepByte_completes h b (by simp [hdepth])
    obtain ⟨-, hp, -⟩ := execStepByte_extends b s t ht
    rw [submitBytes_cons_of_next c ht, ← takeBatch_cons c h hs ht]
    exact ih t (execStepByte_anchored h ht) (hp ▸ hs) (hp ▸ hdepth)

end Sys2Proof.Machine

namespace Sys2Proof.Machine

open Config (esc sof eof)

/-! ### The streaming form (R152) -/

/-- The streaming accumulator holds what fits. -/
theorem Streamer.store_of_fits {p : Params} {acc : List Byte} (m : Mode) (h : ∀ d ∈ p.accDepth, acc.length ≤ d) :
    Streamer.store p m acc = some (⟨m, acc⟩, none) := by
  cases hd : p.accDepth with
  | none => simp only [Streamer.store, hd]
  | some d => simp only [Streamer.store, hd, if_pos (h d hd)]

theorem Streamer.store_of_exceeds {p : Params} {acc : List Byte} {d : Nat} (m : Mode) (hd : p.accDepth = some d)
    (h : d < acc.length) : Streamer.store p m acc = none := by
  simp only [Streamer.store, hd, if_neg (not_le.2 h)]

/-- The streaming accumulator of a state at rest is no longer than the block's: an escaped pair is one byte in it. -/
theorem length_streamerOf_le (s : State) : (streamerOf s).acc.length ≤ s.acc.length := by
  have hbody := length_unstuff s.accBody
  have hsplit : (s.acc.take 1).length + s.accBody.length = s.acc.length := by
    rw [← List.length_append, State.accBody, List.take_append_drop]
  rw [streamerOf, List.length_append]
  omega

/-- What one more byte in the block's accumulator is in the streaming form (R152). -/
theorem streamerOf_append {s : State} (h : s.AccAnchored) (ha : s.acc ≠ []) (b : Byte) (m : Mode) :
    streamerOf ((s.setAcc (s.acc ++ [b])).setMode m) =
      ⟨m, (streamerOf s).acc ++ if s.escapePending then [unescape b] else if b = esc then [] else [b]⟩ := by
  have htake : (s.acc ++ [b]).take 1 = s.acc.take 1 := List.take_append_of_le_length (List.length_pos_iff.2 ha)
  have hbody := accBody_setAcc_append b ha
  show Streamer.mk m ((s.acc ++ [b]).take 1 ++ unstuff (s.setAcc (s.acc ++ [b])).accBody) = _
  rw [htake, hbody, unstuff_append_byte, endsDangling_accBody h, ← List.append_assoc]
  rfl

/-- A byte of the streaming form keeps up with a byte of the block. -/
theorem streamer_step {s t : State} {b : Byte} (h : s.AccAnchored) (ht : execStepByte b s = .next t) :
    ∃ o, Streamer.step s.params b (streamerOf s) = some (streamerOf t, o) ∧
      frameSink t.out = frameSink s.out ++ o.toList := by
  have hlen := length_streamerOf_le s
  have hfits {c : Byte} (hr : s.hasRoom = true) :
      ∀ d ∈ s.params.accDepth, ((streamerOf s).acc ++ [c]).length ≤ d := fun d hd => by
    have := hasRoom_iff.1 hr d hd
    rw [List.length_append, List.length_singleton]
    omega
  rcases execStepByte_cases ht with ⟨hm, hb, rfl⟩ | ⟨hm, rfl, hr, rfl⟩ | ⟨hm, rfl, hne, hr, rfl⟩ | ⟨hm, rfl, rfl⟩ |
    ⟨hm, rfl, hs, hr, rfl⟩ | ⟨hm, hesc, heof, hsof, hne, hr, rfl⟩ | ⟨hm, hne, hr, rfl⟩
  · refine ⟨none, ?_, (List.append_nil _).symm⟩
    simp [Streamer.step, streamerOf, hm, hb]
  · refine ⟨none, ?_, (List.append_nil _).symm⟩
    simp only [Streamer.step, streamerOf, hm, if_true]
    exact Streamer.store_of_fits .frame (canRestart_iff.1 hr)
  · refine ⟨none, ?_, (List.append_nil _).symm⟩
    rw [streamerOf_append h hne]
    simp [Streamer.step, streamerOf, hm, State.escapePending]
  · obtain ⟨f, ha, -⟩ := accAnchored_acc_of_frame h hm
    refine ⟨some (unstuff s.accBody), ?_, by simp⟩
    simp [Streamer.step, streamerOf, hm, ha, State.accBody, Streamer.idle]
  · refine ⟨none, ?_, (List.append_nil _).symm⟩
    have hrestart : streamerOf (s.setAcc [sof]) = ⟨.frame, [sof]⟩ := congrArg (Streamer.mk · _) hm
    rw [hrestart, ← Streamer.store_of_fits .frame (canRestart_iff.1 hr)]
    simp [Streamer.step, streamerOf, hm, hs]
  · refine ⟨none, ?_, (List.append_nil _).symm⟩
    have hdata := streamerOf_append h hne b .frame
    rw [State.escapePending, hm, if_neg (by decide), if_neg hesc] at hdata
    have hmode : s.setAcc (s.acc ++ [b]) = (s.setAcc (s.acc ++ [b])).setMode .frame := by rw [← hm]; rfl
    have hnot : ¬ (b = sof ∧ s.params.sofResync = true) := fun ⟨hb, hs⟩ => by simp [hsof hb] at hs
    rw [hmode, hdata, ← Streamer.store_of_fits .frame (hfits hr)]
    simp only [Streamer.step, streamerOf, hm, if_neg hesc, if_neg heof, if_neg hnot]
  · refine ⟨none, ?_, (List.append_nil _).symm⟩
    rw [streamerOf_append h hne, State.escapePending, hm, if_pos (by decide),
      ← Streamer.store_of_fits .frame (hfits hr)]
    simp only [Streamer.step, streamerOf, hm]

theorem Streamer.run_cons_of_step {p : Params} {b : Byte} {t u : Streamer} {o : Option (List Byte)} (c : List Byte)
    (h : Streamer.step p b t = some (u, o)) :
    Streamer.run p (b :: c) t = (Streamer.run p c u).map fun q => (q.1, o.toList ++ q.2) := by
  rw [Streamer.run, h]
  rfl

/-- A byte that delivers nothing. -/
theorem Streamer.run_cons_of_silent {p : Params} {b : Byte} {t u : Streamer} (c : List Byte)
    (h : Streamer.step p b t = some (u, none)) : Streamer.run p (b :: c) t = Streamer.run p c u := by
  rw [Streamer.run_cons_of_step c h]
  exact Option.map_id_apply

theorem Streamer.run_cons_of_refused {p : Params} {b : Byte} {t : Streamer} (c : List Byte)
    (h : Streamer.step p b t = none) : Streamer.run p (b :: c) t = none := by
  rw [Streamer.run, h]
  rfl

/-- The streaming form simulates the block over a chunk (R152). -/
theorem streamer_run {s t : State} {c : List Byte} (h : s.AccAnchored) (ht : submitBytes c s = .next t) :
    ∃ ps, Streamer.run s.params c (streamerOf s) = some (streamerOf t, ps) ∧
      frameSink t.out = frameSink s.out ++ ps := by
  induction c generalizing s with
  | nil =>
    cases ht
    exact ⟨[], rfl, (List.append_nil _).symm⟩
  | cons b c ih =>
    obtain ⟨u, hu, ht⟩ := andThen_eq_next_iff.1 ht
    obtain ⟨-, hp, -⟩ := execStepByte_extends b s u hu
    obtain ⟨o, hstep, hout⟩ := streamer_step h hu
    obtain ⟨ps, hrun, hsink⟩ := ih (execStepByte_anchored h hu) ht
    refine ⟨o.toList ++ ps, ?_, by rw [hsink, hout, List.append_assoc]⟩
    rw [Streamer.run_cons_of_step c hstep, ← hp, hrun]
    rfl

/-- In FRAME mode the streaming form stores of an escaped payload byte the byte itself, whatever the escapes: the last
byte of what Escape writes for it. -/
theorem Streamer.run_escape_cons (p : Params) (b : Byte) (q c acc : List Byte) :
    ∃ x t, Streamer.run p (escape (b :: q) ++ c) ⟨.frame, acc⟩ = Streamer.run p (x :: (escape q ++ c)) t ∧
      Streamer.step p x t = Streamer.store p .frame (acc ++ [b]) := by
  cases hb : isReserved b
  · obtain ⟨hesc, hsof, heof⟩ := (isReserved_eq_false_iff b).1 hb
    rw [escape_cons_of_unreserved q hb]
    exact ⟨b, ⟨.frame, acc⟩, rfl, by simp [Streamer.step, hesc, hsof, heof]⟩
  · have hopen : Streamer.step p esc ⟨.frame, acc⟩ = some (⟨.esc, acc⟩, none) := rfl
    rw [escape_cons_of_reserved q hb]
    refine ⟨unescape b, ⟨.esc, acc⟩, Streamer.run_cons_of_silent _ hopen, ?_⟩
    show Streamer.store p .frame (acc ++ [unescape (unescape b)]) = _
    rw [unescape_unescape]

/-- An escaped payload that fits once it is unstuffed is taken (R152). -/
theorem Streamer.run_escape_of_fits {p : Params} {q acc : List Byte} (c : List Byte)
    (h : ∀ d ∈ p.accDepth, acc.length + q.length ≤ d) :
    Streamer.run p (escape q ++ c) ⟨.frame, acc⟩ = Streamer.run p c ⟨.frame, acc ++ q⟩ := by
  induction q generalizing acc with
  | nil => rw [List.append_nil]; rfl
  | cons b q ih =>
    have hlen : acc.length + (b :: q).length = (acc ++ [b]).length + q.length := by simp; omega
    rw [hlen] at h
    obtain ⟨x, t, hrun, hstep⟩ := Streamer.run_escape_cons p b q c acc
    rw [Streamer.store_of_fits .frame fun d hd => (Nat.le_add_right _ _).trans (h d hd)] at hstep
    rw [hrun, Streamer.run_cons_of_silent _ hstep, ih h, List.append_assoc]
    rfl

/-- An escaped payload that does not fit even unstuffed is refused (R128, R152). -/
theorem Streamer.run_escape_of_exceeds {p : Params} {d : Nat} {q acc : List Byte} (c : List Byte)
    (hd : p.accDepth = some d) (hacc : acc.length ≤ d) (h : d < acc.length + q.length) :
    Streamer.run p (escape q ++ c) ⟨.frame, acc⟩ = none := by
  induction q generalizing acc with
  | nil => exact absurd h (not_lt.2 hacc)
  | cons b q ih =>
    have hlen : acc.length + (b :: q).length = (acc ++ [b]).length + q.length := by simp; omega
    rw [hlen] at h
    obtain ⟨x, t, hrun, hstep⟩ := Streamer.run_escape_cons p b q c acc
    rw [hrun]
    by_cases hb : (acc ++ [b]).length ≤ d
    · rw [Streamer.store_of_fits .frame (by simpa [hd] using hb)] at hstep
      rw [Streamer.run_cons_of_silent _ hstep, ih hb h]
    · rw [Streamer.store_of_exceeds .frame hd (not_le.1 hb)] at hstep
      exact Streamer.run_cons_of_refused _ hstep

/-- Settles O38: the simulation byte by byte; and with a finite depth the start marker and the payload are what is
counted. -/
theorem streamingFormDeliversTheSame : Obligations.StreamingFormDeliversTheSame := by
  refine ⟨fun s t c h ht => streamer_run h ht, fun p d q hd => ⟨fun hl => ?taken, fun hl => ?refused⟩⟩
  case taken =>
    have hopen : Streamer.step p sof Streamer.idle = some (⟨.frame, [sof]⟩, none) :=
      Streamer.store_of_fits .frame (by rw [hd]; rintro _ ⟨⟩; exact (Nat.le_add_left 1 _).trans hl)
    have hfits : ∀ e ∈ p.accDepth, [sof].length + q.length ≤ e := by
      rw [hd]
      rintro _ ⟨⟩
      exact (Nat.add_comm 1 _).trans_le hl
    rw [frameWrap, Streamer.run_cons_of_silent _ hopen, Streamer.run_escape_of_fits _ hfits]
    rfl
  case refused =>
    rw [frameWrap]
    by_cases hzero : d = 0
    · exact Streamer.run_cons_of_refused _ (Streamer.store_of_exceeds .frame hd (by simp [hzero]))
    · have hopen : Streamer.step p sof Streamer.idle = some (⟨.frame, [sof]⟩, none) :=
        Streamer.store_of_fits .frame (by rw [hd]; rintro _ ⟨⟩; exact Nat.one_le_iff_ne_zero.2 hzero)
      rw [Streamer.run_cons_of_silent _ hopen]
      exact Streamer.run_escape_of_exceeds _ hd (Nat.one_le_iff_ne_zero.2 hzero) (hl.trans_eq (Nat.add_comm _ _))

end Sys2Proof.Machine
